-- ==== Sys2Proof/Word.lean ====
section
/-! DEFINITION. The word types: bytes, 16-bit words, and the indexes of registers and keys (00_scope.md R4, R8). -/

namespace Sys2Proof

/-- An unsigned 8-bit value: a memory byte, a V register, a timer (00_scope.md R4). -/
abbrev Byte := BitVec 8

/-- An unsigned 16-bit value: an opcode, PC, I, a stack entry (00_scope.md R4). -/
abbrev Word := BitVec 16

/-- The index of a general register V0 to VF (10_state.md R20): every index 0 to 15 is legal. -/
abbrev RegIdx := Fin 16

/-- The index of a key, 0x0 to 0xF (10_state.md R28). -/
abbrev KeyIdx := Fin 16

/-- VF, the implicit flag register V[15] (10_state.md R21). -/
abbrev RegIdx.vF : RegIdx := 15

/-- A byte taken as a 16-bit unsigned number, the spec's zext_16 (00_scope.md R8). -/
abbrev Byte.zext (b : Byte) : Word := b.setWidth 16

end Sys2Proof
end

