-- ==== Sys2Proof/Syntax.lean ====
section
/-! DEFINITION. The instruction set: one constructor per row of the opcode map (30_encoding.md R65), in the table's order. -/

namespace Sys2Proof

/-- The 34 instructions of 30_encoding.md R65. `x`, `y` are register indexes, `nn` an 8-bit immediate, `nnn` a 12-bit immediate
already zero-extended to 16 bits, `n` a count of sprite rows (R63). `shr` and `shl` carry the `y` the hardware ignores (R67). -/
inductive Instr where
  /-- 00E0 -/
  | cls
  /-- 00EE -/
  | ret
  /-- 1nnn -/
  | jp (nnn : Word)
  /-- 2nnn -/
  | call (nnn : Word)
  /-- 3xnn -/
  | seI (x : RegIdx) (nn : Byte)
  /-- 4xnn -/
  | sneI (x : RegIdx) (nn : Byte)
  /-- 5xy0 -/
  | seR (x y : RegIdx)
  /-- 6xnn -/
  | ldI (x : RegIdx) (nn : Byte)
  /-- 7xnn -/
  | addI (x : RegIdx) (nn : Byte)
  /-- 8xy0 -/
  | ldR (x y : RegIdx)
  /-- 8xy1 -/
  | or (x y : RegIdx)
  /-- 8xy2 -/
  | and (x y : RegIdx)
  /-- 8xy3 -/
  | xor (x y : RegIdx)
  /-- 8xy4 -/
  | addR (x y : RegIdx)
  /-- 8xy5 -/
  | sub (x y : RegIdx)
  /-- 8xy6 -/
  | shr (x y : RegIdx)
  /-- 8xy7 -/
  | subn (x y : RegIdx)
  /-- 8xyE -/
  | shl (x y : RegIdx)
  /-- 9xy0 -/
  | sneR (x y : RegIdx)
  /-- Annn -/
  | ldIdx (nnn : Word)
  /-- Bnnn -/
  | jpV0 (nnn : Word)
  /-- Cxnn -/
  | rnd (x : RegIdx) (nn : Byte)
  /-- Dxyn -/
  | drw (x y : RegIdx) (n : Nat)
  /-- Ex9E -/
  | skp (x : RegIdx)
  /-- ExA1 -/
  | sknp (x : RegIdx)
  /-- Fx07 -/
  | ldVxDt (x : RegIdx)
  /-- Fx0A -/
  | ldVxK (x : RegIdx)
  /-- Fx15 -/
  | ldDtVx (x : RegIdx)
  /-- Fx18 -/
  | ldStVx (x : RegIdx)
  /-- Fx1E -/
  | addIdx (x : RegIdx)
  /-- Fx29 -/
  | ldF (x : RegIdx)
  /-- Fx33 -/
  | ldB (x : RegIdx)
  /-- Fx55 -/
  | stRegs (x : RegIdx)
  /-- Fx65 -/
  | ldRegs (x : RegIdx)
  deriving DecidableEq, Repr

end Sys2Proof
end

