-- ==== Sys2Proof/WellFormed.lean ====
section
/-! DEFINITION. Which terms of Instr an encoding can carry: a 12-bit immediate and a 4-bit height (30_encoding.md R63). Register
indexes and bytes are in range by their types. -/

namespace Sys2Proof

/-- `nnn` is a 12-bit immediate, 0 to 4095 (30_encoding.md R63). -/
def fitsAddress (nnn : Word) : Bool := decide (nnn.toNat < 0x1000)

/-- `n` is a 4-bit height, 0 to 15 (30_encoding.md R63). -/
def fitsHeight (n : Nat) : Bool := decide (n < 16)

/-- The instruction's fields fit its format (30_encoding.md R62, R63). -/
def Instr.wellFormed : Instr → Bool
  | .jp nnn => fitsAddress nnn
  | .call nnn => fitsAddress nnn
  | .ldIdx nnn => fitsAddress nnn
  | .jpV0 nnn => fitsAddress nnn
  | .drw _ _ n => fitsHeight n
  | .cls => true
  | .ret => true
  | .seI _ _ => true
  | .sneI _ _ => true
  | .seR _ _ => true
  | .ldI _ _ => true
  | .addI _ _ => true
  | .ldR _ _ => true
  | .or _ _ => true
  | .and _ _ => true
  | .xor _ _ => true
  | .addR _ _ => true
  | .sub _ _ => true
  | .shr _ _ => true
  | .subn _ _ => true
  | .shl _ _ => true
  | .sneR _ _ => true
  | .rnd _ _ => true
  | .skp _ => true
  | .sknp _ => true
  | .ldVxDt _ => true
  | .ldVxK _ => true
  | .ldDtVx _ => true
  | .ldStVx _ => true
  | .addIdx _ => true
  | .ldF _ => true
  | .ldB _ => true
  | .stRegs _ => true
  | .ldRegs _ => true

end Sys2Proof
end

