-- ==== Sys2Proof/Decode.lean ====
section
/-! DEFINITION. Decoding by the mask and match of each row of the opcode map (30_encoding.md R64, R65), total on any bytes and
rejecting by name, and the encoder of R70 after it. -/

namespace Sys2Proof

/-- Why bytes are no instruction. -/
inductive Reject where
  /-- The word fits no row (30_encoding.md R66). -/
  | unknownOpcode (op : Word)
  /-- Fewer than the two bytes every instruction has (30_encoding.md R61). -/
  | truncated (bytes : List Byte)
  deriving DecidableEq, Repr

/-- The field x = op[11:8] (30_encoding.md R63). -/
def fieldX (op : Word) : RegIdx := (op.extractLsb' 8 4).toFin

/-- The field y = op[7:4] (30_encoding.md R63). -/
def fieldY (op : Word) : RegIdx := (op.extractLsb' 4 4).toFin

/-- The field n = op[3:0], a count of rows (30_encoding.md R63). -/
def fieldN (op : Word) : Nat := (op.extractLsb' 0 4).toNat

/-- The field nn = op[7:0] (30_encoding.md R63). -/
def fieldNN (op : Word) : Byte := op.extractLsb' 0 8

/-- The field nnn = op[11:0], zero-extended to 16 bits (30_encoding.md R63). -/
def fieldNNN (op : Word) : Word := (op.extractLsb' 0 12).setWidth 16

/-- One row of the opcode map: its pattern's mask and match, and the instruction its fields give (30_encoding.md R65). -/
structure Row where
  mask  : Word
  bits  : Word
  build : Word → Instr

/-- `(op AND mask) == match` (30_encoding.md R64). -/
def Row.fits (r : Row) (op : Word) : Bool := op &&& r.mask == r.bits

/-- A row of format W: the whole word is fixed (30_encoding.md R62). -/
def Row.whole (bits : Word) (i : Instr) : Row := ⟨0xFFFF, bits, fun _ => i⟩

/-- A row of format A: class and nnn (30_encoding.md R62). -/
def Row.address (bits : Word) (f : Word → Instr) : Row := ⟨0xF000, bits, fun op => f (fieldNNN op)⟩

/-- A row of format XI: class, x and nn (30_encoding.md R62). -/
def Row.regByte (bits : Word) (f : RegIdx → Byte → Instr) : Row :=
  ⟨0xF000, bits, fun op => f (fieldX op) (fieldNN op)⟩

/-- A row of format XYF: class, x, y and a function nibble (30_encoding.md R62). -/
def Row.regReg (bits : Word) (f : RegIdx → RegIdx → Instr) : Row :=
  ⟨0xF00F, bits, fun op => f (fieldX op) (fieldY op)⟩

/-- A row of format XYN: class, x, y and n (30_encoding.md R62). -/
def Row.regRegNibble (bits : Word) (f : RegIdx → RegIdx → Nat → Instr) : Row :=
  ⟨0xF000, bits, fun op => f (fieldX op) (fieldY op) (fieldN op)⟩

/-- A row of format XF: class, x and a function byte (30_encoding.md R62). -/
def Row.regFunct (bits : Word) (f : RegIdx → Instr) : Row := ⟨0xF0FF, bits, fun op => f (fieldX op)⟩

/-- Rows 1 to 9 of 30_encoding.md R65: families 0 to 7. -/
def rowsControl : List Row :=
  [.whole 0x00E0 .cls, .whole 0x00EE .ret, .address 0x1000 .jp, .address 0x2000 .call, .regByte 0x3000 .seI,
   .regByte 0x4000 .sneI, .regReg 0x5000 .seR, .regByte 0x6000 .ldI, .regByte 0x7000 .addI]

/-- Rows 10 to 18 of 30_encoding.md R65: family 8. -/
def rowsAlu : List Row :=
  [.regReg 0x8000 .ldR, .regReg 0x8001 .or, .regReg 0x8002 .and, .regReg 0x8003 .xor, .regReg 0x8004 .addR,
   .regReg 0x8005 .sub, .regReg 0x8006 .shr, .regReg 0x8007 .subn, .regReg 0x800E .shl]

/-- Rows 19 to 25 of 30_encoding.md R65: families 9 to E. -/
def rowsMisc : List Row :=
  [.regReg 0x9000 .sneR, .address 0xA000 .ldIdx, .address 0xB000 .jpV0, .regByte 0xC000 .rnd, .regRegNibble 0xD000 .drw,
   .regFunct 0xE09E .skp, .regFunct 0xE0A1 .sknp]

/-- Rows 26 to 34 of 30_encoding.md R65: family F. -/
def rowsF : List Row :=
  [.regFunct 0xF007 .ldVxDt, .regFunct 0xF00A .ldVxK, .regFunct 0xF015 .ldDtVx, .regFunct 0xF018 .ldStVx,
   .regFunct 0xF01E .addIdx, .regFunct 0xF029 .ldF, .regFunct 0xF033 .ldB, .regFunct 0xF055 .stRegs,
   .regFunct 0xF065 .ldRegs]

/-- The opcode map, in the spec's order (30_encoding.md R65). -/
def opcodeMap : List Row := rowsControl ++ (rowsAlu ++ (rowsMisc ++ rowsF))

/-- The one row whose mask and match fit, or the word rejected as unknown (30_encoding.md R64, R66). -/
def decode (op : Word) : Except Reject Instr :=
  match opcodeMap.find? (fun r => r.fits op) with
  | some r => .ok (r.build op)
  | none => .error (.unknownOpcode op)

/-- The opcode of two bytes as they stand in memory: the byte at the lower address is the high half (20_memory.md R45). -/
def opcodeOf (high low : Byte) : Word := high ++ low

/-- Decode the instruction at the head of a byte sequence and give the rest of it: every instruction is two bytes, the most
significant first (30_encoding.md R61). -/
def decodeBytes : List Byte → Except Reject (Instr × List Byte)
  | high :: low :: rest => (decode (opcodeOf high low)).map (fun i => (i, rest))
  | short => .error (.truncated short)

/-- The field x in its place, `x << 8` (30_encoding.md R70). -/
def placeX (x : RegIdx) : Word := BitVec.ofNat 16 x.val <<< 8

/-- The field y in its place, `y << 4` (30_encoding.md R70). -/
def placeY (y : RegIdx) : Word := BitVec.ofNat 16 y.val <<< 4

/-- The field n in its place (30_encoding.md R70). -/
def placeN (n : Nat) : Word := BitVec.ofNat 16 n

/-- The word of an instruction: its row's match with its fields ORed in at their positions (30_encoding.md R65, R70). -/
def encode : Instr → Word
  | .cls => 0x00E0
  | .ret => 0x00EE
  | .jp nnn => 0x1000 ||| nnn
  | .call nnn => 0x2000 ||| nnn
  | .seI x nn => 0x3000 ||| placeX x ||| nn.zext
  | .sneI x nn => 0x4000 ||| placeX x ||| nn.zext
  | .seR x y => 0x5000 ||| placeX x ||| placeY y
  | .ldI x nn => 0x6000 ||| placeX x ||| nn.zext
  | .addI x nn => 0x7000 ||| placeX x ||| nn.zext
  | .ldR x y => 0x8000 ||| placeX x ||| placeY y
  | .or x y => 0x8001 ||| placeX x ||| placeY y
  | .and x y => 0x8002 ||| placeX x ||| placeY y
  | .xor x y => 0x8003 ||| placeX x ||| placeY y
  | .addR x y => 0x8004 ||| placeX x ||| placeY y
  | .sub x y => 0x8005 ||| placeX x ||| placeY y
  | .shr x y => 0x8006 ||| placeX x ||| placeY y
  | .subn x y => 0x8007 ||| placeX x ||| placeY y
  | .shl x y => 0x800E ||| placeX x ||| placeY y
  | .sneR x y => 0x9000 ||| placeX x ||| placeY y
  | .ldIdx nnn => 0xA000 ||| nnn
  | .jpV0 nnn => 0xB000 ||| nnn
  | .rnd x nn => 0xC000 ||| placeX x ||| nn.zext
  | .drw x y n => 0xD000 ||| placeX x ||| placeY y ||| placeN n
  | .skp x => 0xE09E ||| placeX x
  | .sknp x => 0xE0A1 ||| placeX x
  | .ldVxDt x => 0xF007 ||| placeX x
  | .ldVxK x => 0xF00A ||| placeX x
  | .ldDtVx x => 0xF015 ||| placeX x
  | .ldStVx x => 0xF018 ||| placeX x
  | .addIdx x => 0xF01E ||| placeX x
  | .ldF x => 0xF029 ||| placeX x
  | .ldB x => 0xF033 ||| placeX x
  | .stRegs x => 0xF055 ||| placeX x
  | .ldRegs x => 0xF065 ||| placeX x

/-- The high byte of a word, the one stored at the lower address (20_memory.md R45). -/
def highByte (op : Word) : Byte := op.extractLsb' 8 8

/-- The low byte of a word (20_memory.md R45). -/
def lowByte (op : Word) : Byte := op.extractLsb' 0 8

/-- An instruction's bytes in the order memory holds them (20_memory.md R45). -/
def encodeBytes (i : Instr) : List Byte := [highByte (encode i), lowByte (encode i)]

/-- The opcode that the first `nbits` bits of `w` stand for, the bits above them zero: the table's one word is the opcode itself,
bit 0 its least significant bit (00_scope.md R7). -/
def tableOpcode (nbits w : Nat) : Word := BitVec.ofNat 16 (w % 2 ^ nbits)

/-- The instruction the decoder reads from a table word laid out in memory order. -/
def decodeTableWord (nbits w : Nat) : Option Instr :=
  match decodeBytes [highByte (tableOpcode nbits w), lowByte (tableOpcode nbits w)] with
  | .ok (i, _) => some i
  | .error _ => none

end Sys2Proof
end

