-- ==== Sys2Proof/Config.lean ====
section
/-! DEFINITION. What is fixed for the machine (00_scope.md R4) and the one free value of the model: the random byte. The default of
the parameter FONT stands in Machine/Font.lean, where a later repair may mend its bytes. -/

namespace Sys2Proof.Config

/-- MEM_SIZE (00_scope.md R4): addresses below it are valid (20_memory.md R40). -/
abbrev memSize : Nat := 4096

/-- PROGRAM_BASE, where an image is loaded and where PC stands after reset (00_scope.md R4). -/
abbrev programBase : Nat := 0x200

/-- MAX_ROM, the longest image Reset accepts (00_scope.md R4, 70_reset_and_hazards.md R161). -/
abbrev maxRom : Nat := 3584

/-- STACK_DEPTH (00_scope.md R4). -/
abbrev stackDepth : Nat := 16

/-- FONT_BASE, where the font stands after reset (00_scope.md R4). -/
abbrev fontBase : Nat := 0x000

/-- GLYPH_BYTES, the bytes of one font glyph (00_scope.md R4). -/
abbrev glyphBytes : Nat := 5

/-- FB_W, the columns of the framebuffer (00_scope.md R4). -/
abbrev fbWidth : Nat := 64

/-- FB_H, the rows of the framebuffer (00_scope.md R4). -/
abbrev fbHeight : Nat := 32

/-- The two values of the parameter KEY_INDEX_POLICY (45_family_E_keys.md R112). -/
inductive KeyIndexPolicy where
  | fault
  | mask
  deriving DecidableEq, Repr

/-- KEY_INDEX_POLICY: "the spec's value is `fault`" (45_family_E_keys.md R112, decision D9; log 7). -/
def keyIndexPolicy : KeyIndexPolicy := .fault

/-- FREE VALUE. The byte the random source gives on its `n`-th draw where the environment's feed supplies none
(43_family_9-C_misc.md R103, 60_exceptions.md R153, decision D16; log 3). It has no body, so nothing constrains it. -/
opaque rand : Nat → Byte

end Sys2Proof.Config
end

