-- ==== Sys2Proof/Machine/Font.lean ====
section
/-! DEFINITION. FONT, the 80 glyph bytes: a parameter of the machine, with the spec's default value (00_scope.md R4,
10_state.md R33). -/

namespace Sys2Proof.Machine

/-- A value of the parameter FONT: FONT[0] to FONT[79], the glyph of digit d at 5 * d to 5 * d + 4 (00_scope.md R4,
10_state.md R33). -/
abbrev Font := Vector Byte 80

/-- The bytes of the default, glyph after glyph, four digits a line (10_state.md R33, decision D13; log 4). -/
def defaultFontBytes : List Byte :=
  [0xF0, 0x90, 0x90, 0x90, 0xF0, 0x20, 0x60, 0x20, 0x20, 0x70, 0xF0, 0x10, 0xF0, 0x80, 0xF0, 0xF0, 0x10, 0xF0, 0x10, 0xF0] ++
  ([0x90, 0x90, 0xF0, 0x10, 0x10, 0xF0, 0x80, 0xF0, 0x10, 0xF0, 0xF0, 0x80, 0xF0, 0x90, 0xF0, 0xF0, 0x10, 0x20, 0x40, 0x40] ++
  ([0xF0, 0x90, 0xF0, 0x90, 0xF0, 0xF0, 0x90, 0xF0, 0x10, 0xF0, 0xF0, 0x90, 0xF0, 0x90, 0x90, 0xE0, 0x90, 0xE0, 0x90, 0xE0] ++
  [0xF0, 0x80, 0x80, 0x80, 0xF0, 0xE0, 0x90, 0x90, 0x90, 0xE0, 0xF0, 0x80, 0xF0, 0x80, 0xF0, 0xF0, 0x80, 0xF0, 0x80, 0x80]))

/-- The default value of FONT (10_state.md R33, decision D13; log 4). -/
def defaultFont : Font := ⟨defaultFontBytes.toArray, rfl⟩

end Sys2Proof.Machine
end

