-- ==== Sys2Proof/Machine/State.lean ====
section
/-! DEFINITION. The state of the core as plain data (the tuple at the head of 10_state.md), the environment's part beside it, the
reasons to stop, and the state after reset (10_state.md R35). -/

namespace Sys2Proof.Machine

/-- The run state of the core (10_state.md R30). -/
inductive RunMode where
  /-- A Step fetches and executes one instruction. -/
  | running
  /-- Entered by Fx0A; `x` is the register that will receive the key index. -/
  | awaitingKey (x : RegIdx)
  /-- Entered by a fatal fault; only Reset leaves it (60_exceptions.md R134). -/
  | faulted
  deriving DecidableEq, Repr

/-- The error kinds (60_exceptions.md R131); "no error" is the absence of a record. -/
inductive ErrorKind where
  | unknownOpcode
  | stackOverflow
  | stackUnderflow
  | addressOutOfRange
  | romTooLarge
  | keyIndexOutOfRange
  deriving DecidableEq, Repr

/-- FAULTINFO once a fatal fault was raised: kind, pc, op and addr (10_state.md R31). -/
structure FaultRecord where
  kind : ErrorKind
  pc   : Word
  op   : Option Word
  addr : Option Nat
  deriving DecidableEq, Repr

/-- The events the environment may send (00_scope.md R5, 60_exceptions.md R154). -/
inductive Event where
  | step
  | tick
  | keyDown (k : KeyIdx)
  | keyUp (k : KeyIdx)
  | reset (rom : List Byte)
  deriving DecidableEq, Repr

/-- What the core emits: a DIAG record (60_exceptions.md R132) or the sound_pulse of a Tick (60_exceptions.md R143). -/
inductive Output where
  | diag (op pc0 : Word)
  | soundPulse (on : Bool)
  deriving DecidableEq, Repr

/-- The environment's part, on the far side of the interface (60_exceptions.md R154); no state of the core (10_state.md R36).
`schedule`: the events to come, the next first, empty meaning Step (log 2). `randFeed`: the bytes the pluggable random source
supplies next; `draws`: the number of draws made, to which the free value of a draw is applied (log 3). `outputs`: the records
received, the latest first (log 6). `font`: the parameter FONT, which a model takes as an argument (00_scope.md R4, 10_state.md R33,
R36); only Reset reads it and no event changes it (log 4). -/
structure Environment where
  schedule : List Event
  randFeed : List Byte
  draws    : Nat
  outputs  : List Output
  font     : Font
  deriving DecidableEq, Repr

/-- Memory: the bytes that differ from the reset image under the default FONT, as (address, byte) pairs with rising addresses
(20_memory.md R40). -/
abbrev Memory := List Host.Cell

/-- The 64 by 32 grid of one-bit pixels, row-major: row r, then column c (10_state.md R29). -/
abbrev Framebuffer := Vector (Vector Bool 64) 32

/-- The state of the core (10_state.md, head and R20 to R31) and the environment's part. -/
structure State where
  /-- MEM (20_memory.md R40). -/
  mem       : Memory
  /-- V[0] to V[15] (10_state.md R20). -/
  v         : Vector Byte 16
  /-- I, the index register (10_state.md R23). -/
  i         : Word
  /-- PC (10_state.md R22). -/
  pc        : Word
  /-- STACK[0] to STACK[15] (10_state.md R24). -/
  stack     : Vector Word 16
  /-- SP, the number of stack entries in use, 0 to 16 (10_state.md R24). -/
  sp        : Fin 17
  /-- DT, the delay timer (10_state.md R27). -/
  dt        : Byte
  /-- ST, the sound timer (10_state.md R27). -/
  st        : Byte
  /-- KEY[0] to KEY[15], true meaning pressed (10_state.md R28). -/
  keys      : Vector Bool 16
  /-- FB (10_state.md R29). -/
  fb        : Framebuffer
  /-- MODE (10_state.md R30). -/
  mode      : RunMode
  /-- FAULTINFO, `none` standing for `kind = none` (10_state.md R31). -/
  faultInfo : Option FaultRecord
  /-- The environment's part. -/
  env       : Environment
  deriving DecidableEq, Repr

/-- Reasons the machine stops with no next state. There is none, and so no constructor: every fatal fault of the spec is TAKEN, its
entry being a next state (60_exceptions.md R133; log 10), and nothing else stops the core. -/
inductive Fault
  deriving DecidableEq, Repr

/-- Reasons an instruction is refused. -/
inductive Refusal where
  /-- An instruction of the opcode table that has no meaning yet; raised by an arm of exec only, safe. No arm raises it. -/
  | notModelled (mnemonic : String)
  deriving DecidableEq, Repr

/-- The environment at the start: no event waiting, no random byte supplied, nothing drawn, nothing received, and FONT at its
default (log 2, 3, 4, 6). -/
def Environment.initial : Environment := { schedule := [], randFeed := [], draws := 0, outputs := [], font := defaultFont }

/-- All pixels off (10_state.md R29). -/
def Framebuffer.blank : Framebuffer := Vector.replicate 32 (Vector.replicate 64 false)

/-- The state after Reset with an empty image under the default FONT (10_state.md R35, 70_reset_and_hazards.md R160): memory as the
reset image, every register at the value the spec's table gives, Running. -/
def State.reset : State where
  mem       := []
  v         := Vector.replicate 16 0x00
  i         := 0x0000
  pc        := 0x0200
  stack     := Vector.replicate 16 0x0000
  sp        := 0
  dt        := 0x00
  st        := 0x00
  keys      := Vector.replicate 16 false
  fb        := Framebuffer.blank
  mode      := .running
  faultInfo := none
  env       := Environment.initial

end Sys2Proof.Machine
end

