-- ==== Sys2Proof/Machine/Ops.lean ====
section
/-! DEFINITION. The named operations over memory, registers, stack, framebuffer and environment, taking a fault, and Reset. -/

namespace Sys2Proof.Machine

/-! ## Memory -/

/-- What an unlisted address reads as: the reset image under the default FONT, the font and then zero (10_state.md R33, R35;
20_memory.md R49). The bytes of another FONT are listed like any other bytes (log 4). -/
def resetByte (a : Nat) : Byte := defaultFontBytes.getD a 0x00

/-- The byte at an address (20_memory.md R42, after its range check). -/
def Memory.read : Memory → Nat → Byte
  | [], a => resetByte a
  | (b, w) :: rest, a => if a = b then w else Memory.read rest a

/-- List the byte `v` at `a`, keeping the addresses rising. -/
def Memory.insert (a : Nat) (v : Byte) : Memory → Memory
  | [] => [(a, v)]
  | (b, w) :: rest =>
    if a < b then (a, v) :: (b, w) :: rest
    else if a = b then (a, v) :: rest
    else (b, w) :: Memory.insert a v rest

/-- List nothing at `a`. -/
def Memory.erase (a : Nat) (m : Memory) : Memory := m.filter (fun c => decide (c.1 ≠ a))

/-- `MEM[a] <- v` for a valid address (20_memory.md R44), keeping the canonical form; an address that does not exist holds
nothing, and the instructions check the range before they come here. -/
def Memory.write (m : Memory) (a : Nat) (v : Byte) : Memory :=
  if a < Config.memSize then (if v = resetByte a then m.erase a else m.insert a v) else m

/-- `a` is above `low`, where there is one. -/
def aboveLow : Option Nat → Nat → Bool
  | none, _ => true
  | some l, a => decide (l < a)

/-- The addresses of the list are all above `low`, rise strictly, are valid, and no byte is the one an unlisted address reads as. -/
def Memory.wfAbove : Option Nat → Memory → Bool
  | _, [] => true
  | low, (a, v) :: rest =>
    aboveLow low a && decide (a < Config.memSize) && decide (v ≠ resetByte a) && Memory.wfAbove (some a) rest

/-- The canonical form of memory. -/
def Memory.wf (m : Memory) : Bool := Memory.wfAbove none m

/-- Store bytes at rising addresses from `a` (20_memory.md R45). -/
def Memory.writeBytes (m : Memory) (a : Nat) : List Byte → Memory
  | [] => m
  | b :: rest => Memory.writeBytes (m.write a b) (a + 1) rest

/-- MemRead(addr, 1): the byte, or the offending address (20_memory.md R42). -/
def Memory.readByte (m : Memory) (a : Nat) : Except Nat Byte :=
  if a < Config.memSize then .ok (m.read a) else .error a

/-- MemRead(addr, 2), big-endian: both bytes must be valid, or the first offending address (20_memory.md R43). -/
def Memory.readWord (m : Memory) (a : Nat) : Except Nat Word :=
  match m.readByte a with
  | .error bad => .error bad
  | .ok high =>
    match m.readByte (a + 1) with
    | .error bad => .error bad
    | .ok low => .ok (opcodeOf high low)

/-! ## Registers -/

/-- V[x] (10_state.md R20). -/
def State.readV (s : State) (x : RegIdx) : Byte := s.v[x.val]

/-- `V[x] <- b` (10_state.md R20). -/
def State.writeV (x : RegIdx) (b : Byte) (s : State) : State := { s with v := s.v.set x.val b }

/-- Replace the whole register file (used by the block load). -/
def State.setV (v : Vector Byte 16) (s : State) : State := { s with v := v }

/-- `I <- w` (10_state.md R23). -/
def State.setI (w : Word) (s : State) : State := { s with i := w }

/-- `pc <- w` (10_state.md R22). -/
def State.setPc (w : Word) (s : State) : State := { s with pc := w }

/-- `DT <- b` (10_state.md R27). -/
def State.setDt (b : Byte) (s : State) : State := { s with dt := b }

/-- `ST <- b` (10_state.md R27). -/
def State.setSt (b : Byte) (s : State) : State := { s with st := b }

/-- Replace memory. -/
def State.setMem (m : Memory) (s : State) : State := { s with mem := m }

/-- Replace the framebuffer. -/
def State.setFb (f : Framebuffer) (s : State) : State := { s with fb := f }

/-- `MODE <- m` (10_state.md R30). -/
def State.setMode (m : RunMode) (s : State) : State := { s with mode := m }

/-- Replace the stack cells and SP together (10_state.md R24). -/
def State.setStack (cells : Vector Word 16) (sp : Fin 17) (s : State) : State := { s with stack := cells, sp := sp }

/-- Replace the environment's part. -/
def State.setEnv (e : Environment) (s : State) : State := { s with env := e }

/-- KEY[k] (10_state.md R28). -/
def State.key (s : State) (k : KeyIdx) : Bool := s.keys[k.val]

/-- `KEY[k] <- on` (10_state.md R28). -/
def State.setKey (k : KeyIdx) (on : Bool) (s : State) : State := { s with keys := s.keys.set k.val on }

/-- The PC advance of the cycle, before the handler runs (30_encoding.md R60). -/
def State.advance (s : State) : State := s.setPc (s.pc + 2)

/-- Skip the next word where the condition holds: add 2 to the advanced PC (41_family_3-7_skip_imm.md, head). -/
def State.skipIf (c : Bool) (s : State) : State := if c then s.setPc (s.pc + 2) else s

/-! ## The call stack -/

/-- Push(v); `none` where SP is 16 (10_state.md R25). -/
def State.push (w : Word) (s : State) : Option State :=
  if h : s.sp.val < 16 then some (s.setStack (s.stack.set s.sp.val w) ⟨s.sp.val + 1, by omega⟩) else none

/-- Pop(): the value and the state after; `none` where SP is 0 (10_state.md R26). -/
def State.pop (s : State) : Option (Word × State) :=
  if h : 0 < s.sp.val then some (s.stack[s.sp.val - 1], s.setStack s.stack ⟨s.sp.val - 1, by omega⟩) else none

/-! ## The framebuffer -/

/-- FB[r][c] (10_state.md R29). -/
def Framebuffer.pixel (f : Framebuffer) (r : Fin 32) (c : Fin 64) : Bool := f[r.val][c.val]

/-- FB[r][c] of a state (10_state.md R29). -/
def State.pixel (s : State) (r : Fin 32) (c : Fin 64) : Bool := s.fb.pixel r c

/-- `FB[r][c] <- FB[r][c] XOR 1` (44_family_D_sprite.md R105). -/
def Framebuffer.toggle (f : Framebuffer) (r : Fin 32) (c : Fin 64) : Framebuffer :=
  f.set r.val (f[r.val].set c.val (!(f.pixel r c)))

/-! ## Taking a fault, and the unknown opcode -/

/-- Taking a fatal fault, the one shared operation (60_exceptions.md R133): `s` is the state BEFORE the Step, so nothing the Step
wrote is kept and PC is pc0; MODE becomes Faulted and FAULTINFO records kind, pc0, op and addr. There is no return from it but
Reset (60_exceptions.md R134, R150). -/
def State.raiseFault (kind : ErrorKind) (op : Option Word) (addr : Option Nat) (s : State) : State :=
  { s with mode := .faulted, faultInfo := some { kind := kind, pc := s.pc, op := op, addr := addr } }

/-- The environment with one more record received. -/
def Environment.receive (o : Output) (e : Environment) : Environment := { e with outputs := o :: e.outputs }

/-- Emit a record on the outputs. -/
def State.emit (o : Output) (s : State) : State := s.setEnv (s.env.receive o)

/-- `report UnknownOpcode(op, pc0)`: one DIAG record, the PC advance kept, nothing else (60_exceptions.md R132). -/
def State.reportUnknown (op : Word) (s : State) : State := (s.emit (.diag op s.pc)).advance

/-- The fatal kinds; UnknownOpcode is the one non-fatal kind (60_exceptions.md R130). -/
def ErrorKind.fatal : ErrorKind → Bool
  | .unknownOpcode => false
  | .stackOverflow => true
  | .stackUnderflow => true
  | .addressOutOfRange => true
  | .romTooLarge => true
  | .keyIndexOutOfRange => true

/-- The numeric code of an error kind (60_exceptions.md R131). -/
def ErrorKind.code : ErrorKind → Nat
  | .unknownOpcode => 1
  | .stackOverflow => 2
  | .stackUnderflow => 3
  | .addressOutOfRange => 4
  | .romTooLarge => 5
  | .keyIndexOutOfRange => 6

/-- The code FAULTINFO shows, 0 where no fault was raised (60_exceptions.md R131). -/
def faultCode : Option FaultRecord → Nat
  | none => 0
  | some r => r.kind.code

/-! ## Fetch -/

/-- The opcode fetch, MemRead(PC, 2), or the offending address (30_encoding.md R60, 20_memory.md R43). -/
def State.fetch (s : State) : Except Nat Word := s.mem.readWord s.pc.toNat

/-! ## The random source -/

/-- The byte the next draw gives: what the environment's feed supplies, else the free value of this draw (log 3). -/
def Environment.drawn (e : Environment) : Byte :=
  match e.randFeed with
  | b :: _ => b
  | [] => Config.rand e.draws

/-- The environment after one draw. -/
def Environment.afterDraw (e : Environment) : Environment :=
  { e with randFeed := e.randFeed.tail, draws := e.draws + 1 }

/-! ## Reset -/

/-- Memory right after Reset: FONT at 0x000, the image at 0x200, zero elsewhere (70_reset_and_hazards.md R160). -/
def bootMemory (font : Font) (rom : List Byte) : Memory :=
  Memory.writeBytes (Memory.writeBytes [] Config.fontBase font.toList) Config.programBase rom

/-- Reset(rom) under the parameter FONT, the program load included (70_reset_and_hazards.md R160), and its rejection of an image that
is too long, the state then being that of an empty image but for the fault (R161). Only the environment's part survives. -/
def State.resetWith (rom : List Byte) (e : Environment) : State :=
  if rom.length ≤ Config.maxRom then
    (State.reset.setMem (bootMemory e.font rom)).setEnv e
  else
    ((State.reset.setMem (bootMemory e.font [])).raiseFault .romTooLarge none (some rom.length)).setEnv e

end Sys2Proof.Machine
end

