-- ==== Sys2Proof/Machine/Flags.lean ====
section
/-! DEFINITION. Every flag computation: carry, strict greater, the bits shifted out, and the order in which VF and V[x] are
written (10_state.md R21, 42_family_8_alu.md R90 to R99). -/

namespace Sys2Proof.Machine

/-- A flag as the 8-bit value 0x01 or 0x00 that VF receives (10_state.md R21). -/
def flagByte (c : Bool) : Byte := if c then 0x01 else 0x00

/-- Carry out of an 8-bit addition: the exact sum is above 255 (42_family_8_alu.md R95). -/
def carryFlag (a b : Byte) : Bool := decide (a.toNat + b.toNat > 255)

/-- The minuend is strictly greater than the subtrahend (42_family_8_alu.md R96, R98). -/
def greaterFlag (minuend subtrahend : Byte) : Bool := decide (minuend.toNat > subtrahend.toNat)

/-- The bit a right shift moves out, bit 0 before the shift (42_family_8_alu.md R97). -/
def shiftedOutRight (a : Byte) : Bool := a &&& 1 != 0

/-- The bit a left shift moves out, bit 7 before the shift (42_family_8_alu.md R99). -/
def shiftedOutLeft (a : Byte) : Bool := (a >>> 7) &&& 1 != 0

/-- VF is written first and V[x] second, so the result wins where x is 0xF (42_family_8_alu.md R90, decision D4; against a
sentence of 70_reset_and_hazards.md R165: log 9). -/
def State.writeFlagged (x : RegIdx) (flag : Bool) (result : Byte) (s : State) : State :=
  (s.writeV RegIdx.vF (flagByte flag)).writeV x result

end Sys2Proof.Machine
end

