-- ==== Sys2Proof/Machine/Alu.lean ====
section
/-! DEFINITION. Family 8: register to register move, logic, add, subtract, shift (42_family_8_alu.md). The operands are read from
the state before any write, which is the latching of R90. -/

namespace Sys2Proof.Machine

/-- 8xy0 (42_family_8_alu.md R91). -/
def execLdR (x y : RegIdx) (s : State) : Host.Outcome State Fault Refusal :=
  .next (s.advance.writeV x (s.readV y))

/-- 8xy1, VF not reset (42_family_8_alu.md R92). -/
def execOr (x y : RegIdx) (s : State) : Host.Outcome State Fault Refusal :=
  .next (s.advance.writeV x (s.readV x ||| s.readV y))

/-- 8xy2 (42_family_8_alu.md R93). -/
def execAnd (x y : RegIdx) (s : State) : Host.Outcome State Fault Refusal :=
  .next (s.advance.writeV x (s.readV x &&& s.readV y))

/-- 8xy3 (42_family_8_alu.md R94). -/
def execXor (x y : RegIdx) (s : State) : Host.Outcome State Fault Refusal :=
  .next (s.advance.writeV x (s.readV x ^^^ s.readV y))

/-- 8xy4 (42_family_8_alu.md R95). -/
def execAddR (x y : RegIdx) (s : State) : Host.Outcome State Fault Refusal :=
  .next (s.advance.writeFlagged x (carryFlag (s.readV x) (s.readV y)) (s.readV x + s.readV y))

/-- 8xy5 (42_family_8_alu.md R96). -/
def execSub (x y : RegIdx) (s : State) : Host.Outcome State Fault Refusal :=
  .next (s.advance.writeFlagged x (greaterFlag (s.readV x) (s.readV y)) (s.readV x - s.readV y))

/-- 8xy6; the field y is ignored (42_family_8_alu.md R97, 30_encoding.md R67). -/
def execShr (x _y : RegIdx) (s : State) : Host.Outcome State Fault Refusal :=
  .next (s.advance.writeFlagged x (shiftedOutRight (s.readV x)) (s.readV x >>> 1))

/-- 8xy7 (42_family_8_alu.md R98). -/
def execSubn (x y : RegIdx) (s : State) : Host.Outcome State Fault Refusal :=
  .next (s.advance.writeFlagged x (greaterFlag (s.readV y) (s.readV x)) (s.readV y - s.readV x))

/-- 8xyE; the field y is ignored (42_family_8_alu.md R99, 30_encoding.md R67). -/
def execShl (x _y : RegIdx) (s : State) : Host.Outcome State Fault Refusal :=
  .next (s.advance.writeFlagged x (shiftedOutLeft (s.readV x)) (s.readV x <<< 1))

end Sys2Proof.Machine
end

