-- ==== Sys2Proof/Machine/Operands.lean ====
section
/-! DEFINITION. The operand forms: ranges of memory at I, BCD digits, the glyph address, the key index, the register block and
the sprite (20_memory.md R46, 44_family_D_sprite.md, 45_family_E_keys.md, 46_family_F_timer_index_memory.md). -/

namespace Sys2Proof.Machine

/-- The lowest address of `base .. base + count - 1` that is out of range, where there is one: exact integers, no wrap
(20_memory.md R46, 60_exceptions.md R137). -/
def rangeFault (base count : Nat) : Option Nat :=
  if count > 0 ∧ base + (count - 1) ≥ Config.memSize then some (max base Config.memSize) else none

/-- The three decimal digits of a byte, hundreds first, one a byte (46_family_F_timer_index_memory.md R121). -/
def bcdDigits (b : Byte) : List Byte :=
  [BitVec.ofNat 8 (b.toNat / 100), BitVec.ofNat 8 (b.toNat / 10 % 10), BitVec.ofNat 8 (b.toNat % 10)]

/-- The glyph address `V[x] * 5`, not masked (46_family_F_timer_index_memory.md R120). -/
def glyphAddress (b : Byte) : Word := b.zext * BitVec.ofNat 16 Config.glyphBytes

/-- The key a register value selects, or none where the value is refused as an index (45_family_E_keys.md R112). -/
def keyIndex (policy : Config.KeyIndexPolicy) (b : Byte) : Option KeyIdx :=
  match policy with
  | .fault => if h : b.toNat < 16 then some ⟨b.toNat, h⟩ else none
  | .mask => some ⟨b.toNat % 16, Nat.mod_lt _ (by omega)⟩

/-- V[0] to V[x], x included (46_family_F_timer_index_memory.md R122). -/
def State.registersTo (s : State) (x : RegIdx) : List Byte := s.v.toList.take (x.val + 1)

/-- `V[r] <- MEM[base + r]` for r in 0 .. x, one after the other (46_family_F_timer_index_memory.md R123). -/
def loadRegisters (m : Memory) (base : Nat) (x : RegIdx) (v : Vector Byte 16) : Vector Byte 16 :=
  (List.range (x.val + 1)).foldl (fun acc r => acc.setIfInBounds r (m.read (base + r))) v

/-- Column `c` of a sprite byte, bit `0x80 >> c` (44_family_D_sprite.md R106). -/
def spriteBit (byte : Byte) (c : Nat) : Bool := byte &&& ((0x80 : Byte) >>> c) != 0

/-- The row a sprite row is drawn at, `(vy + r) mod 32` (44_family_D_sprite.md R107). -/
def targetRow (vy : Byte) (r : Nat) : Fin 32 := ⟨(vy.toNat + r) % 32, Nat.mod_lt _ (by omega)⟩

/-- The column a sprite column is drawn at, `(vx + c) mod 64` (44_family_D_sprite.md R107). -/
def targetCol (vx : Byte) (c : Nat) : Fin 64 := ⟨(vx.toNat + c) % 64, Nat.mod_lt _ (by omega)⟩

/-- A drawing under way: the framebuffer, and whether a collision was met. -/
structure Canvas where
  fb  : Framebuffer
  hit : Bool
  deriving DecidableEq, Repr

/-- Toggle one target pixel, a collision being tested before the toggle (44_family_D_sprite.md R105). -/
def Canvas.toggle (row : Fin 32) (col : Fin 64) (k : Canvas) : Canvas :=
  { fb := k.fb.toggle row col, hit := k.hit || k.fb.pixel row col }

/-- Draw one sprite byte: columns 0 to 7 (44_family_D_sprite.md R105). -/
def Canvas.drawByte (vx : Byte) (row : Fin 32) (byte : Byte) (k : Canvas) : Canvas :=
  (List.range 8).foldl (fun acc c => if spriteBit byte c then acc.toggle row (targetCol vx c) else acc) k

/-- Draw the `n` sprite bytes at `base`: rows 0 to n - 1 (44_family_D_sprite.md R105). -/
def Canvas.draw (m : Memory) (base : Nat) (vx vy : Byte) (n : Nat) (k : Canvas) : Canvas :=
  (List.range n).foldl (fun acc r => acc.drawByte vx (targetRow vy r) (m.read (base + r))) k

end Sys2Proof.Machine
end

