-- ==== Sys2Proof/Machine/Control.lean ====
section
/-! DEFINITION. Families 0 to 2: clear, return, jump, call (40_family_0-2_control.md). Every meaning takes the state BEFORE the
Step, with PC = pc0, and begins with the PC advance of 30_encoding.md R60. -/

namespace Sys2Proof.Machine

/-- 00E0 (40_family_0-2_control.md R80). -/
def execCls (s : State) : Host.Outcome State Fault Refusal :=
  .next (s.advance.setFb Framebuffer.blank)

/-- 00EE (40_family_0-2_control.md R81). -/
def execRet (s : State) : Host.Outcome State Fault Refusal :=
  match s.advance.pop with
  | some (t, s') => .next (s'.setPc t)
  | none => .next (s.raiseFault .stackUnderflow (some (encode .ret)) none)

/-- 1nnn (40_family_0-2_control.md R82). -/
def execJp (nnn : Word) (s : State) : Host.Outcome State Fault Refusal :=
  .next (s.advance.setPc nnn)

/-- 2nnn: the pushed value is the advanced PC (40_family_0-2_control.md R83). -/
def execCall (nnn : Word) (s : State) : Host.Outcome State Fault Refusal :=
  match s.advance.push s.advance.pc with
  | some s' => .next (s'.setPc nnn)
  | none => .next (s.raiseFault .stackOverflow (some (encode (.call nnn))) none)

end Sys2Proof.Machine
end

