-- ==== Sys2Proof/Machine/Keys.lean ====
section
/-! DEFINITION. Family E: skip on key state (45_family_E_keys.md). -/

namespace Sys2Proof.Machine

/-- Ex9E (45_family_E_keys.md R110, R112; log 7). -/
def execSkp (x : RegIdx) (s : State) : Host.Outcome State Fault Refusal :=
  match keyIndex Config.keyIndexPolicy (s.readV x) with
  | some k => .next (s.advance.skipIf (s.key k))
  | none => .next (s.raiseFault .keyIndexOutOfRange (some (encode (.skp x))) (some (s.readV x).toNat))

/-- ExA1 (45_family_E_keys.md R111, R112; log 7). -/
def execSknp (x : RegIdx) (s : State) : Host.Outcome State Fault Refusal :=
  match keyIndex Config.keyIndexPolicy (s.readV x) with
  | some k => .next (s.advance.skipIf (!s.key k))
  | none => .next (s.raiseFault .keyIndexOutOfRange (some (encode (.sknp x))) (some (s.readV x).toNat))

end Sys2Proof.Machine
end

