-- ==== Sys2Proof/Machine/Misc.lean ====
section
/-! DEFINITION. Families 9 to C: skip, load index, indexed jump, random (43_family_9-C_misc.md). -/

namespace Sys2Proof.Machine

/-- 9xy0 (43_family_9-C_misc.md R100). -/
def execSneR (x y : RegIdx) (s : State) : Host.Outcome State Fault Refusal :=
  .next (s.advance.skipIf (s.readV x != s.readV y))

/-- Annn (43_family_9-C_misc.md R101). -/
def execLdIdx (nnn : Word) (s : State) : Host.Outcome State Fault Refusal :=
  .next (s.advance.setI nnn)

/-- Bnnn: the register is always V[0] (43_family_9-C_misc.md R102). -/
def execJpV0 (nnn : Word) (s : State) : Host.Outcome State Fault Refusal :=
  .next (s.advance.setPc (nnn + (s.readV 0).zext))

/-- Cxnn: one draw of the random source (43_family_9-C_misc.md R103, 60_exceptions.md R153; log 3). -/
def execRnd (x : RegIdx) (nn : Byte) (s : State) : Host.Outcome State Fault Refusal :=
  .next ((s.advance.writeV x (s.env.drawn &&& nn)).setEnv s.env.afterDraw)

end Sys2Proof.Machine
end

