-- ==== Sys2Proof/Machine/SkipImmediate.lean ====
section
/-! DEFINITION. Families 3 to 7: skips, load immediate, add immediate (41_family_3-7_skip_imm.md). -/

namespace Sys2Proof.Machine

/-- 3xnn (41_family_3-7_skip_imm.md R85). -/
def execSeI (x : RegIdx) (nn : Byte) (s : State) : Host.Outcome State Fault Refusal :=
  .next (s.advance.skipIf (s.readV x == nn))

/-- 4xnn (41_family_3-7_skip_imm.md R86). -/
def execSneI (x : RegIdx) (nn : Byte) (s : State) : Host.Outcome State Fault Refusal :=
  .next (s.advance.skipIf (s.readV x != nn))

/-- 5xy0 (41_family_3-7_skip_imm.md R87). -/
def execSeR (x y : RegIdx) (s : State) : Host.Outcome State Fault Refusal :=
  .next (s.advance.skipIf (s.readV x == s.readV y))

/-- 6xnn (41_family_3-7_skip_imm.md R88). -/
def execLdI (x : RegIdx) (nn : Byte) (s : State) : Host.Outcome State Fault Refusal :=
  .next (s.advance.writeV x nn)

/-- 7xnn, no flag (41_family_3-7_skip_imm.md R89). -/
def execAddI (x : RegIdx) (nn : Byte) (s : State) : Host.Outcome State Fault Refusal :=
  .next (s.advance.writeV x (s.readV x + nn))

end Sys2Proof.Machine
end

