-- ==== Sys2Proof/Machine/Sprite.lean ====
section
/-! DEFINITION. Family D: the sprite blitter (44_family_D_sprite.md). -/

namespace Sys2Proof.Machine

/-- Dxyn: the coordinates are latched, the range is checked before anything is written, VF ends as the collision flag
(44_family_D_sprite.md R105). -/
def execDrw (x y : RegIdx) (n : Nat) (s : State) : Host.Outcome State Fault Refusal :=
  match rangeFault s.i.toNat n with
  | some bad => .next (s.raiseFault .addressOutOfRange (some (encode (.drw x y n))) (some bad))
  | none =>
    let drawn := Canvas.draw s.mem s.i.toNat (s.readV x) (s.readV y) n { fb := s.fb, hit := false }
    .next ((s.advance.setFb drawn.fb).writeV RegIdx.vF (flagByte drawn.hit))

end Sys2Proof.Machine
end

