-- ==== Sys2Proof/Machine/TimerIndexMemory.lean ====
section
/-! DEFINITION. Family F: timers, key wait, index arithmetic, BCD, register block store and load
(46_family_F_timer_index_memory.md). -/

namespace Sys2Proof.Machine

/-- Fx07 (46_family_F_timer_index_memory.md R115). -/
def execLdVxDt (x : RegIdx) (s : State) : Host.Outcome State Fault Refusal :=
  .next (s.advance.writeV x s.dt)

/-- Fx0A: the Step writes MODE only; the completion is part of KeyDown (46_family_F_timer_index_memory.md R116). -/
def execLdVxK (x : RegIdx) (s : State) : Host.Outcome State Fault Refusal :=
  .next (s.advance.setMode (.awaitingKey x))

/-- Fx15 (46_family_F_timer_index_memory.md R117). -/
def execLdDtVx (x : RegIdx) (s : State) : Host.Outcome State Fault Refusal :=
  .next (s.advance.setDt (s.readV x))

/-- Fx18 (46_family_F_timer_index_memory.md R118). -/
def execLdStVx (x : RegIdx) (s : State) : Host.Outcome State Fault Refusal :=
  .next (s.advance.setSt (s.readV x))

/-- Fx1E, no flag (46_family_F_timer_index_memory.md R119). -/
def execAddIdx (x : RegIdx) (s : State) : Host.Outcome State Fault Refusal :=
  .next (s.advance.setI (s.i + (s.readV x).zext))

/-- Fx29 (46_family_F_timer_index_memory.md R120). -/
def execLdF (x : RegIdx) (s : State) : Host.Outcome State Fault Refusal :=
  .next (s.advance.setI (glyphAddress (s.readV x)))

/-- Fx33 (46_family_F_timer_index_memory.md R121). -/
def execLdB (x : RegIdx) (s : State) : Host.Outcome State Fault Refusal :=
  match rangeFault s.i.toNat 3 with
  | some bad => .next (s.raiseFault .addressOutOfRange (some (encode (.ldB x))) (some bad))
  | none => .next (s.advance.setMem (s.mem.writeBytes s.i.toNat (bcdDigits (s.readV x))))

/-- Fx55; I is not changed (46_family_F_timer_index_memory.md R122). -/
def execStRegs (x : RegIdx) (s : State) : Host.Outcome State Fault Refusal :=
  match rangeFault s.i.toNat (x.val + 1) with
  | some bad => .next (s.raiseFault .addressOutOfRange (some (encode (.stRegs x))) (some bad))
  | none => .next (s.advance.setMem (s.mem.writeBytes s.i.toNat (s.registersTo x)))

/-- Fx65; I is not changed (46_family_F_timer_index_memory.md R123). -/
def execLdRegs (x : RegIdx) (s : State) : Host.Outcome State Fault Refusal :=
  match rangeFault s.i.toNat (x.val + 1) with
  | some bad => .next (s.raiseFault .addressOutOfRange (some (encode (.ldRegs x))) (some bad))
  | none => .next (s.advance.setV (loadRegisters s.mem s.i.toNat x s.v))

end Sys2Proof.Machine
end

