-- ==== Sys2Proof/Machine/Events.lean ====
section
/-! DEFINITION. The events of the interface: the instruction cycle, Tick, KeyDown, KeyUp and Reset (30_encoding.md R60,
60_exceptions.md R142 to R146, 70_reset_and_hazards.md R160), and the driver model of R171. -/

namespace Sys2Proof.Machine

/-- Step: fetch, decode and execute one instruction where the core is Running, else a no-op (30_encoding.md R60; 60_exceptions.md
R132, R134, R137, R146). -/
def cycle (s : State) : Host.Outcome State Fault Refusal :=
  match s.mode with
  | .running =>
    match s.fetch with
    | .error bad => .next (s.raiseFault .addressOutOfRange none (some bad))
    | .ok op =>
      match decode op with
      | .ok i => exec i s
      | .error _ => .next (s.reportUnknown op)
  | .awaitingKey _ => .next s
  | .faulted => .next s

/-- A timer after one Tick: down by one, saturating at 0 (10_state.md R27, 60_exceptions.md R142). -/
def countDown (b : Byte) : Byte := if b.toNat > 0 then b - 1 else b

/-- Tick, with the sound_pulse it emits (60_exceptions.md R142, R143). -/
def tick (s : State) : State :=
  match s.mode with
  | .faulted => s
  | .running => ((s.emit (.soundPulse (decide (s.st.toNat > 0)))).setDt (countDown s.dt)).setSt (countDown s.st)
  | .awaitingKey _ => ((s.emit (.soundPulse (decide (s.st.toNat > 0)))).setDt (countDown s.dt)).setSt (countDown s.st)

/-- KeyDown(k): set the key, and end a key wait where the key was recorded as released (60_exceptions.md R144). -/
def keyDown (k : KeyIdx) (s : State) : State :=
  match s.mode with
  | .faulted => s
  | .running => s.setKey k true
  | .awaitingKey x =>
    if s.key k then s.setKey k true
    else ((s.setKey k true).writeV x (BitVec.ofNat 8 k.val)).setMode .running

/-- KeyUp(k): clear the key, nothing else (60_exceptions.md R145). -/
def keyUp (k : KeyIdx) (s : State) : State :=
  match s.mode with
  | .faulted => s
  | .running => s.setKey k false
  | .awaitingKey _ => s.setKey k false

/-- One event applied whole (00_scope.md R6; 60_exceptions.md R154). -/
def applyEvent (e : Event) (s : State) : Host.Outcome State Fault Refusal :=
  match e with
  | .step => cycle s
  | .tick => .next (tick s)
  | .keyDown k => .next (keyDown k s)
  | .keyUp k => .next (keyUp k s)
  | .reset rom => .next (State.resetWith rom s.env)

/-- The next event: the head of the environment's schedule, or Step where nothing is scheduled (00_scope.md R5, R6; log 2). -/
def nextEvent (s : State) : Host.Outcome State Fault Refusal :=
  match s.env.schedule with
  | [] => cycle s
  | e :: rest => applyEvent e (s.setEnv { s.env with schedule := rest })

/-- One period of the driver model "exactly IPT Steps, then one Tick" (70_reset_and_hazards.md R171; `ipt` is OPEN, an argument). -/
def driverPeriod (ipt : Nat) : List Event := List.replicate ipt .step ++ [.tick]

/-! ## Observations (60_exceptions.md R154) -/

/-- The framebuffer read: all 2048 pixels as they stand (60_exceptions.md R147). -/
def framebufferRead (s : State) : Framebuffer := s.fb

/-- The output ST_value (60_exceptions.md R143). -/
def stValue (s : State) : Byte := s.st

/-- The output sound_active, a level (60_exceptions.md R143). -/
def soundActive (s : State) : Bool := decide (s.st.toNat > 0)

/-- The output FAULT: the Faulted flag and FAULTINFO (60_exceptions.md R148). -/
def faultOutput (s : State) : Bool × Option FaultRecord := (s.mode == .faulted, s.faultInfo)

/-- The DIAG records received so far, the latest first (60_exceptions.md R148). -/
def diagRecords (s : State) : List (Word × Word) :=
  s.env.outputs.filterMap (fun | .diag op pc0 => some (op, pc0) | .soundPulse _ => none)

end Sys2Proof.Machine
end

