-- ==== Sys2Proof/Machine/Step.lean ====
section
/-! DEFINITION. One step of the machine, and the placing of an instruction where the next step fetches it. -/

namespace Sys2Proof.Machine

/-- One step: the next event of the environment's schedule, or a Step event where nothing is scheduled (00_scope.md R6; log 2). -/
def step (s : State) : Host.Outcome State Fault Refusal := nextEvent s

/-- Where the next step fetches from: PC where an instruction can be fetched from it, else the program base (20_memory.md R43). -/
def State.fetchPc (s : State) : Word := if s.pc.toNat + 1 < Config.memSize then s.pc else 0x0200

/-- The schedule with a Step as its next event, an empty schedule meaning that already (log 2). -/
def scheduleStep : List Event → List Event
  | [] => []
  | e :: rest => .step :: e :: rest

/-- `s` with the instruction of a table word stored where the next step fetches, so that the next step runs it (log 8). -/
def State.withFetchWord (s : State) (nbits w : Nat) : State :=
  { s with
    mem  := s.mem.writeBytes s.fetchPc.toNat [highByte (tableOpcode nbits w), lowByte (tableOpcode nbits w)]
    pc   := s.fetchPc
    mode := .running
    env  := { s.env with schedule := scheduleStep s.env.schedule } }

end Sys2Proof.Machine
end

