-- ==== Sys2Proof/Safety.lean ====
section
/-! DEFINITION. The terms claims are stated in: what two states share, a fault taken, the registers an instruction may write, the
invariants of a run, the halted condition, and what a program cannot see. -/

namespace Sys2Proof.Machine

/-! ## Frames -/

/-- STACK[k] (10_state.md R24). -/
def State.stackAt (s : State) (k : Fin 16) : Word := s.stack[k.val]

/-- The parts of the state (10_state.md, head), and the environment's. -/
inductive Part where
  | memory
  | registers
  | index
  | pc
  | stack
  | delay
  | sound
  | keys
  | screen
  | mode
  | fault
  | environment
  deriving DecidableEq, Repr

/-- `t` has the same content as `s` in one part; memory is compared by the read of every byte. -/
def Same : Part → State → State → Prop
  | .memory, s, t => ∀ a, t.mem.read a = s.mem.read a
  | .registers, s, t => ∀ r, t.readV r = s.readV r
  | .index, s, t => t.i = s.i
  | .pc, s, t => t.pc = s.pc
  | .stack, s, t => t.sp = s.sp ∧ ∀ k, t.stackAt k = s.stackAt k
  | .delay, s, t => t.dt = s.dt
  | .sound, s, t => t.st = s.st
  | .keys, s, t => ∀ k, t.key k = s.key k
  | .screen, s, t => ∀ r c, t.pixel r c = s.pixel r c
  | .mode, s, t => t.mode = s.mode
  | .fault, s, t => t.faultInfo = s.faultInfo
  | .environment, s, t => t.env = s.env

/-- `t` has the same content as `s` in every part but those listed (00_scope.md R10). -/
def SameExcept (changed : List Part) (s t : State) : Prop := ∀ p, p ∉ changed → Same p s t

/-- From `s`, the state before the Step, a fatal fault was taken and `t` is the state after it (60_exceptions.md R133). -/
def FaultTaken (kind : ErrorKind) (op : Option Word) (addr : Option Nat) (s t : State) : Prop :=
  t.mode = .faulted ∧ t.faultInfo = some { kind := kind, pc := s.pc, op := op, addr := addr } ∧ SameExcept [.mode, .fault] s t

/-- The number `w` is the instruction's word: it decodes to it and encodes from it (30_encoding.md R70). -/
def EncodedAs (w : Nat) (i : Instr) : Prop := decode (BitVec.ofNat 16 w) = .ok i ∧ (encode i).toNat = w

/-- The general registers an instruction may write: those its rule assigns (10_state.md R20, R21). -/
def mayWrite : Instr → RegIdx → Bool
  | .ldI x _, r => r == x
  | .addI x _, r => r == x
  | .ldR x _, r => r == x
  | .or x _, r => r == x
  | .and x _, r => r == x
  | .xor x _, r => r == x
  | .addR x _, r => r == x || r == RegIdx.vF
  | .sub x _, r => r == x || r == RegIdx.vF
  | .shr x _, r => r == x || r == RegIdx.vF
  | .subn x _, r => r == x || r == RegIdx.vF
  | .shl x _, r => r == x || r == RegIdx.vF
  | .rnd x _, r => r == x
  | .drw _ _ _, r => r == RegIdx.vF
  | .ldVxDt x, r => r == x
  | .ldRegs x, r => decide (r ≤ x)
  | .cls, _ => false
  | .ret, _ => false
  | .jp _, _ => false
  | .call _, _ => false
  | .seI _ _, _ => false
  | .sneI _ _, _ => false
  | .seR _ _, _ => false
  | .sneR _ _, _ => false
  | .ldIdx _, _ => false
  | .jpV0 _, _ => false
  | .skp _, _ => false
  | .sknp _, _ => false
  | .ldVxK _, _ => false
  | .ldDtVx _, _ => false
  | .ldStVx _, _ => false
  | .addIdx _, _ => false
  | .ldF _, _ => false
  | .ldB _, _ => false
  | .stRegs _, _ => false

/-- The eight instructions that can raise a fatal fault (60_exceptions.md R140). -/
def canFault : Instr → Bool
  | .ret => true
  | .call _ => true
  | .drw _ _ _ => true
  | .skp _ => true
  | .sknp _ => true
  | .ldB _ => true
  | .stRegs _ => true
  | .ldRegs _ => true
  | .cls => false
  | .jp _ => false
  | .seI _ _ => false
  | .sneI _ _ => false
  | .seR _ _ => false
  | .ldI _ _ => false
  | .addI _ _ => false
  | .ldR _ _ => false
  | .or _ _ => false
  | .and _ _ => false
  | .xor _ _ => false
  | .addR _ _ => false
  | .sub _ _ => false
  | .shr _ _ => false
  | .subn _ _ => false
  | .shl _ _ => false
  | .sneR _ _ => false
  | .ldIdx _ => false
  | .jpV0 _ => false
  | .rnd _ _ => false
  | .ldVxDt _ => false
  | .ldVxK _ => false
  | .ldDtVx _ => false
  | .ldStVx _ => false
  | .addIdx _ => false
  | .ldF _ => false

/-! ## The sprite in closed form -/

/-- Pixel (row, col) is a target of a sprite bit that is 1: membership in the set S of 44_family_D_sprite.md R108. -/
def spriteCovers (s : State) (vx vy : Byte) (n : Nat) (row : Fin 32) (col : Fin 64) : Prop :=
  ∃ r < n, ∃ c < 8, s.mem.read (s.i.toNat + r) &&& ((0x80 : Byte) >>> c) ≠ 0 ∧
    (vy.toNat + r) % 32 = row.val ∧ (vx.toNat + c) % 64 = col.val

/-! ## Invariants -/

/-- Memory is in its canonical form. -/
def MemoryCanonical (s : State) : Prop := s.mem.wf = true

/-- PC is at most 0x10FE and every stack entry in use lies in 0x002 to 0x1000 (10_state.md R22, 40_family_0-2_control.md R81). -/
def ControlInRange (s : State) : Prop :=
  s.pc.toNat ≤ 0x10FE ∧ ∀ k : Fin 16, k.val < s.sp.val → 0x002 ≤ (s.stackAt k).toNat ∧ (s.stackAt k).toNat ≤ 0x1000

/-- What a fault record says of the address it records, by kind (60_exceptions.md R131). -/
def addrFits : ErrorKind → Option Nat → Prop
  | .unknownOpcode, _ => False
  | .stackOverflow, a => a = none
  | .stackUnderflow, a => a = none
  | .addressOutOfRange, a => ∃ n, a = some n ∧ 4096 ≤ n
  | .romTooLarge, a => ∃ n, a = some n ∧ 3584 < n
  | .keyIndexOutOfRange, a => ∃ n, a = some n ∧ 15 < n ∧ n ≤ 255

/-- FAULTINFO holds a record exactly while the core is Faulted, of a fatal kind, with the frozen PC and an address that fits its
kind (10_state.md R31, 60_exceptions.md R131, R134). -/
def FaultRecordFits (s : State) : Prop :=
  (s.mode = .faulted ↔ s.faultInfo ≠ none) ∧
    ∀ r, s.faultInfo = some r → r.kind.fatal = true ∧ r.pc = s.pc ∧ addrFits r.kind r.addr

/-! ## The end of a run -/

/-- The halted condition: Running, and the word at PC is 1nnn with nnn = PC (70_reset_and_hazards.md R172). -/
def Halted (s : State) : Prop :=
  s.mode = .running ∧ s.pc.toNat ≤ 0xFFE ∧ s.fetch = .ok (0x1000 + s.pc)

/-! ## What a program cannot see -/

/-- `t` differs from `s` only in what no instruction reads: ST, the stack cells at and above SP, FAULTINFO, the records received and
the parameter FONT, which Reset alone reads (10_state.md R24, R27, R31, R33; 60_exceptions.md R148). -/
def LookAlike (s t : State) : Prop :=
  t.mem = s.mem ∧ t.v = s.v ∧ t.i = s.i ∧ t.pc = s.pc ∧ t.sp = s.sp ∧
    (∀ k : Fin 16, k.val < s.sp.val → t.stackAt k = s.stackAt k) ∧ t.dt = s.dt ∧ t.keys = s.keys ∧ t.fb = s.fb ∧
    t.mode = s.mode ∧ t.env.schedule = s.env.schedule ∧ t.env.randFeed = s.env.randFeed ∧ t.env.draws = s.env.draws

end Sys2Proof.Machine
end

