-- ==== Sys2Proof/Certificates/Slice0/Obligations.lean ====
section
/-! DEFINITION. The statements for the provers, from the rules of spec/, family by family. Where a clause rests on a decision of
the spec (92_eei_decisions.md) or on a choice of the model (notes/assumptions), the docstring says so. -/

open Sys2Proof Sys2Proof.Machine

/-! ## Encoding and decoding -/

/-- Decoding the word of a well-formed instruction gives the instruction back, every field included (30_encoding.md section 8). -/
def Obligations.DecodeInvertsEncode : Prop :=
  ∀ i : Instr, i.wellFormed = true → decode (encode i) = .ok i

/-- A word that decodes is the word of the well-formed instruction it decodes to, so no bit of it is dropped, and no two
instructions share a word (30_encoding.md section 8). -/
def Obligations.EncodeInvertsDecode : Prop :=
  ∀ (op : Word) (i : Instr), decode op = .ok i → encode i = op ∧ i.wellFormed = true

/-- At most one of the 34 rows fits a word; the row that fits is the one decoded by; with none the word is rejected (30_encoding.md
section 4; that every literal digit takes part is decision D11). -/
def Obligations.DecodeFindsTheOnlyFittingRow : Prop :=
  opcodeMap.length = 34 ∧
  ∀ op : Word,
    (opcodeMap.filter (fun r => r.fits op)).length ≤ 1 ∧
    (∀ r ∈ opcodeMap, r.fits op = true → decode op = .ok (r.build op)) ∧
    ((∀ r ∈ opcodeMap, r.fits op = false) → decode op = .error (.unknownOpcode op))

/-- The words that decode to nothing are the ones listed class by class (30_encoding.md section 6, decision D11). -/
def Obligations.UnknownWordsClassByClass : Prop :=
  ∀ op : Word, decode op = .error (.unknownOpcode op) ↔
    (op.toNat / 4096 = 0x0 ∧ op.toNat ≠ 0x00E0 ∧ op.toNat ≠ 0x00EE) ∨
    (op.toNat / 4096 = 0x5 ∧ op.toNat % 16 ≠ 0) ∨
    (op.toNat / 4096 = 0x8 ∧ op.toNat % 16 ∈ [0x8, 0x9, 0xA, 0xB, 0xC, 0xD, 0xF]) ∨
    (op.toNat / 4096 = 0x9 ∧ op.toNat % 16 ≠ 0) ∨
    (op.toNat / 4096 = 0xE ∧ op.toNat % 256 ∉ [0x9E, 0xA1]) ∨
    (op.toNat / 4096 = 0xF ∧ op.toNat % 256 ∉ [0x07, 0x0A, 0x15, 0x18, 0x1E, 0x29, 0x33, 0x55, 0x65])

/-- Words written out from the patterns decode to the instructions they stand for (95_test_vectors.md section 3). -/
def Obligations.SampleWordsDecode : Prop :=
  decode 0x00E0#16 = .ok .cls ∧ decode 0x1234#16 = .ok (.jp 0x234) ∧ decode 0x5AB0#16 = .ok (.seR 0xA 0xB) ∧
  decode 0x8AB7#16 = .ok (.subn 0xA 0xB) ∧ decode 0x9AB0#16 = .ok (.sneR 0xA 0xB) ∧ decode 0xD12F#16 = .ok (.drw 1 2 15) ∧
  decode 0xEFA1#16 = .ok (.sknp 15) ∧ decode 0xFF65#16 = .ok (.ldRegs 15) ∧
  decode 0x5AB1#16 = .error (.unknownOpcode 0x5AB1) ∧ decode 0x0000#16 = .error (.unknownOpcode 0)

/-! ## The instruction cycle -/

/-- Where the two bytes at PC, most significant first, decode to an instruction, a Step of the Running core is exec of it on the
state before the Step; so is a step of the machine where nothing else is scheduled (log 2), and where a Step event is scheduled. -/
def Obligations.StepRunsTheDecodedInstruction : Prop :=
  ∀ (s : State) (i : Instr), s.mode = .running → s.pc.toNat + 1 < 4096 →
    decode (BitVec.ofNat 16 ((s.mem.read s.pc.toNat).toNat * 256 + (s.mem.read (s.pc.toNat + 1)).toNat)) = .ok i →
    cycle s = exec i s ∧
    (s.env.schedule = [] → step s = exec i s) ∧
    (∀ rest, s.env.schedule = .step :: rest → step s = exec i (s.setEnv { s.env with schedule := rest }))

/-- A step takes the events of the schedule in their order, one whole event a step, and is a Step event where none is scheduled: the
model's form of the order being the environment's (00_scope.md section 5; log 2). -/
def Obligations.StepTakesTheNextEvent : Prop :=
  ∀ s : State,
    (s.env.schedule = [] → step s = cycle s) ∧
    (∀ rest, s.env.schedule = .step :: rest → step s = cycle (s.setEnv { s.env with schedule := rest })) ∧
    (∀ rest, s.env.schedule = .tick :: rest → step s = .next (tick (s.setEnv { s.env with schedule := rest }))) ∧
    (∀ k rest, s.env.schedule = .keyDown k :: rest →
      step s = .next (keyDown k (s.setEnv { s.env with schedule := rest }))) ∧
    (∀ k rest, s.env.schedule = .keyUp k :: rest →
      step s = .next (keyUp k (s.setEnv { s.env with schedule := rest }))) ∧
    (∀ rom rest, s.env.schedule = .reset rom :: rest →
      step s = .next (State.resetWith rom { s.env with schedule := rest }))

/-- A Step while the core is AwaitingKey or Faulted changes nothing at all and fetches nothing (60_exceptions.md section 10; the
Faulted half is decision D6; that a step of the machine is a Step where nothing is scheduled is the model's choice, log 2). -/
def Obligations.CycleIsNoOpUnlessRunning : Prop :=
  ∀ s : State, s.mode ≠ .running → cycle s = .next s ∧ (s.env.schedule = [] → step s = .next s)

/-- A Step over a word that fits no row emits one DIAG record, keeps the PC advance and does nothing else (60_exceptions.md
section 3; one record each time is decision D8; that records are kept in a list is the model's choice, log 6). -/
def Obligations.UnknownWordReportsAndGoesOn : Prop :=
  ∀ s : State, s.mode = .running → ∀ op : Word, s.fetch = .ok op → decode op = .error (.unknownOpcode op) →
    ∃ t, cycle s = .next t ∧ t.pc = s.pc + 2 ∧ diagRecords t = (op, s.pc) :: diagRecords s ∧
      t.env = { s.env with outputs := .diag op s.pc :: s.env.outputs } ∧ SameExcept [.pc, .environment] s t

/-- The fetch reads two bytes, the one at the lower address the more significant, at any address, odd or even; it faults where
either byte is out of range and records the lower such address (20_memory.md sections 2 and 5; 60_exceptions.md section 5; the
fault's precision is decision D5). -/
def Obligations.FetchIsBigEndianAndBounded : Prop :=
  ∀ s : State,
    (s.pc.toNat ≤ 0xFFE → ∃ op, s.fetch = .ok op ∧
      op.toNat = (s.mem.read s.pc.toNat).toNat * 256 + (s.mem.read (s.pc.toNat + 1)).toNat) ∧
    (s.pc.toNat = 0xFFF → s.fetch = .error 0x1000) ∧
    (s.pc.toNat ≥ 0x1000 → s.fetch = .error s.pc.toNat) ∧
    (s.mode = .running → s.pc.toNat ≥ 0xFFF →
      ∃ t, cycle s = .next t ∧ FaultTaken .addressOutOfRange none (some (max s.pc.toNat 0x1000)) s t)

/-- The word that withFetchWord places is the one the very next step fetches and runs (log 8). -/
def Obligations.WithFetchWordRunsThatWord : Prop :=
  ∀ (s : State) (w : Nat) (i : Instr), decode (BitVec.ofNat 16 w) = .ok i →
    step (s.withFetchWord 16 w) = exec i ((s.withFetchWord 16 w).setEnv s.env)

/-! ## Families 0 to 2 -/

/-- 00E0 turns every pixel off and changes nothing else but PC (40_family_0-2_control.md R80). -/
def Obligations.ClearScreenTurnsAllPixelsOff : Prop :=
  EncodedAs 0x00E0 .cls ∧
  ∀ s : State, ∃ t, exec .cls s = .next t ∧ (∀ r c, t.pixel r c = false) ∧ t.pc = s.pc + 2 ∧ SameExcept [.screen, .pc] s t

/-- 1nnn sets PC to nnn and Bnnn to nnn + V[0], not reduced to 12 bits; nothing else changes, and the jump itself does not fault:
where the target is 0xFFF or above it is the next fetch that cannot be made (R82, R102). -/
def Obligations.JumpsSetOnlyPc : Prop :=
  ∀ nnn : Word, nnn.toNat < 4096 →
    EncodedAs (0x1000 + nnn.toNat) (.jp nnn) ∧ EncodedAs (0xB000 + nnn.toNat) (.jpV0 nnn) ∧
    ∀ s : State,
      (∃ t, exec (.jp nnn) s = .next t ∧ t.pc = nnn ∧ SameExcept [.pc] s t ∧
        (nnn.toNat = 0xFFF → t.fetch = .error 0x1000) ∧ (nnn.toNat < 0xFFF → ∃ op, t.fetch = .ok op)) ∧
      (∃ t, exec (.jpV0 nnn) s = .next t ∧ t.pc.toNat = nnn.toNat + (s.readV 0).toNat ∧ SameExcept [.pc] s t ∧
        (nnn.toNat + (s.readV 0).toNat ≥ 0xFFF → ∃ a, t.fetch = .error a))

/-- 2nnn pushes the address of the next instruction and jumps; on a full stack it takes StackOverflow and pushes nothing
(40_family_0-2_control.md 2nnn, 10_state.md section 5; the fault's precision is decision D5). -/
def Obligations.CallPushesTheReturnAddress : Prop :=
  ∀ (nnn : Word) (s : State),
    (nnn.toNat < 4096 → EncodedAs (0x2000 + nnn.toNat) (.call nnn)) ∧
    (s.sp.val < 16 → ∃ t, exec (.call nnn) s = .next t ∧ t.pc = nnn ∧ t.sp.val = s.sp.val + 1 ∧
      (∀ k : Fin 16, t.stackAt k = if k.val = s.sp.val then s.pc + 2 else s.stackAt k) ∧ SameExcept [.pc, .stack] s t) ∧
    (s.sp.val = 16 → ∃ t, exec (.call nnn) s = .next t ∧ FaultTaken .stackOverflow (some (encode (.call nnn))) none s t)

/-- 00EE pops PC; on an empty stack it takes StackUnderflow (40_family_0-2_control.md 00EE, 10_state.md section 5; the fault's
precision is decision D5; that the cells stay as they are is the model's choice, log 5). -/
def Obligations.ReturnPopsPc : Prop :=
  EncodedAs 0x00EE .ret ∧
  ∀ s : State,
    (∀ h : 0 < s.sp.val, ∃ t, exec .ret s = .next t ∧ t.pc = s.stackAt ⟨s.sp.val - 1, by omega⟩ ∧ t.sp.val = s.sp.val - 1 ∧
      (∀ k, t.stackAt k = s.stackAt k) ∧ SameExcept [.pc, .stack] s t) ∧
    (s.sp.val = 0 → ∃ t, exec .ret s = .next t ∧ FaultTaken .stackUnderflow (some 0x00EE) none s t)

/-- A call and, from any state with the stack it left, a return: PC is the address after the call and SP is as before it
(95_test_vectors.md S9; 40_family_0-2_control.md 00EE and 2nnn). -/
def Obligations.ReturnUndoesCall : Prop :=
  ∀ (nnn : Word) (s t u : State), s.sp.val < 16 → exec (.call nnn) s = .next t → Same .stack t u →
    ∃ w, exec .ret u = .next w ∧ w.pc = s.pc + 2 ∧ w.sp = s.sp ∧ ∀ k : Fin 16, k.val < s.sp.val → w.stackAt k = s.stackAt k

/-! ## Skips -/

/-- The four skips over register contents leave PC at pc0 + 4 where their condition holds, else at pc0 + 2, and change nothing else;
a skip past the end of memory does not fault, the next fetch does (R85, R86, R87, R100). -/
def Obligations.SkipsCompareAndMoveOnlyPc : Prop :=
  ∀ (x y : RegIdx) (nn : Byte),
    EncodedAs (0x3000 + 256 * x.val + nn.toNat) (.seI x nn) ∧ EncodedAs (0x4000 + 256 * x.val + nn.toNat) (.sneI x nn) ∧
    EncodedAs (0x5000 + 256 * x.val + 16 * y.val) (.seR x y) ∧ EncodedAs (0x9000 + 256 * x.val + 16 * y.val) (.sneR x y) ∧
    ∀ s : State,
      (∃ t, exec (.seI x nn) s = .next t ∧ t.pc = (if s.readV x = nn then s.pc + 4 else s.pc + 2) ∧ SameExcept [.pc] s t ∧
        (s.pc = 0xFFE → s.readV x = nn → t.fetch = .error 0x1002)) ∧
      (∃ t, exec (.sneI x nn) s = .next t ∧ t.pc = (if s.readV x = nn then s.pc + 2 else s.pc + 4) ∧ SameExcept [.pc] s t) ∧
      (∃ t, exec (.seR x y) s = .next t ∧ t.pc = (if s.readV x = s.readV y then s.pc + 4 else s.pc + 2) ∧
        SameExcept [.pc] s t) ∧
      (∃ t, exec (.sneR x y) s = .next t ∧ t.pc = (if s.readV x = s.readV y then s.pc + 2 else s.pc + 4) ∧
        SameExcept [.pc] s t)

/-- Ex9E skips where the key V[x] is pressed and ExA1 where it is not, for an index 0 to 15; a larger index takes the fatal fault
KeyIndexOutOfRange (45_family_E_keys.md; the fault is the spec's decision D9, log 7, its precision decision D5). -/
def Obligations.KeySkipsReadOneKey : Prop :=
  ∀ (x : RegIdx) (s : State),
    EncodedAs (0xE09E + 256 * x.val) (.skp x) ∧ EncodedAs (0xE0A1 + 256 * x.val) (.sknp x) ∧
    (∀ h : (s.readV x).toNat < 16,
      (∃ t, exec (.skp x) s = .next t ∧ t.pc = (if s.key ⟨(s.readV x).toNat, h⟩ = true then s.pc + 4 else s.pc + 2) ∧
        SameExcept [.pc] s t) ∧
      (∃ t, exec (.sknp x) s = .next t ∧ t.pc = (if s.key ⟨(s.readV x).toNat, h⟩ = true then s.pc + 2 else s.pc + 4) ∧
        SameExcept [.pc] s t)) ∧
    ((s.readV x).toNat > 15 →
      (∃ t, exec (.skp x) s = .next t ∧
        FaultTaken .keyIndexOutOfRange (some (encode (.skp x))) (some (s.readV x).toNat) s t) ∧
      (∃ t, exec (.sknp x) s = .next t ∧
        FaultTaken .keyIndexOutOfRange (some (encode (.sknp x))) (some (s.readV x).toNat) s t))

/-! ## Moves, arithmetic and logic -/

/-- 6xnn, 7xnn and 8xy0 write V[x] with nn, with the sum mod 256 and with V[y]; every other register, VF included where it is not
V[x], and everything else but PC is unchanged (R88, R89, R91). -/
def Obligations.ByteMovesAndAddImmediate : Prop :=
  ∀ (x y : RegIdx) (nn : Byte),
    EncodedAs (0x6000 + 256 * x.val + nn.toNat) (.ldI x nn) ∧ EncodedAs (0x7000 + 256 * x.val + nn.toNat) (.addI x nn) ∧
    EncodedAs (0x8000 + 256 * x.val + 16 * y.val) (.ldR x y) ∧
    ∀ s : State,
      (∃ t, exec (.ldI x nn) s = .next t ∧ t.readV x = nn ∧ (∀ r, r ≠ x → t.readV r = s.readV r) ∧ t.pc = s.pc + 2 ∧
        SameExcept [.registers, .pc] s t) ∧
      (∃ t, exec (.addI x nn) s = .next t ∧ (t.readV x).toNat = ((s.readV x).toNat + nn.toNat) % 256 ∧
        (∀ r, r ≠ x → t.readV r = s.readV r) ∧ t.pc = s.pc + 2 ∧ SameExcept [.registers, .pc] s t) ∧
      (∃ t, exec (.ldR x y) s = .next t ∧ t.readV x = s.readV y ∧ (∀ r, r ≠ x → t.readV r = s.readV r) ∧ t.pc = s.pc + 2 ∧
        SameExcept [.registers, .pc] s t)

/-- 8xy1, 8xy2 and 8xy3 write V[x] with the bitwise OR, AND and exclusive OR; VF is not reset and nothing else but PC changes
(R92, R93, R94). -/
def Obligations.LogicWritesOnlyVx : Prop :=
  ∀ x y : RegIdx,
    EncodedAs (0x8001 + 256 * x.val + 16 * y.val) (.or x y) ∧ EncodedAs (0x8002 + 256 * x.val + 16 * y.val) (.and x y) ∧
    EncodedAs (0x8003 + 256 * x.val + 16 * y.val) (.xor x y) ∧
    ∀ s : State,
      (∃ t, exec (.or x y) s = .next t ∧
        (∀ b < 8, (t.readV x).getLsbD b = ((s.readV x).getLsbD b || (s.readV y).getLsbD b)) ∧
        (∀ r, r ≠ x → t.readV r = s.readV r) ∧ t.pc = s.pc + 2 ∧ SameExcept [.registers, .pc] s t) ∧
      (∃ t, exec (.and x y) s = .next t ∧
        (∀ b < 8, (t.readV x).getLsbD b = ((s.readV x).getLsbD b && (s.readV y).getLsbD b)) ∧
        (∀ r, r ≠ x → t.readV r = s.readV r) ∧ t.pc = s.pc + 2 ∧ SameExcept [.registers, .pc] s t) ∧
      (∃ t, exec (.xor x y) s = .next t ∧
        (∀ b < 8, (t.readV x).getLsbD b = ((s.readV x).getLsbD b ^^ (s.readV y).getLsbD b)) ∧
        (∀ r, r ≠ x → t.readV r = s.readV r) ∧ t.pc = s.pc + 2 ∧ SameExcept [.registers, .pc] s t)

/-- 8xy4: V[x] is the sum mod 256 and VF the carry, both of the values before the instruction; where x is 0xF the result is what VF
ends holding (42_family_8_alu.md 8xy4; the aliased cases are decision D4). -/
def Obligations.AddWritesSumAndCarry : Prop :=
  ∀ (x y : RegIdx) (s : State), EncodedAs (0x8004 + 256 * x.val + 16 * y.val) (.addR x y) ∧
    ∃ t, exec (.addR x y) s = .next t ∧
    (t.readV x).toNat = ((s.readV x).toNat + (s.readV y).toNat) % 256 ∧
    (x ≠ 15 → t.readV 15 = if (s.readV x).toNat + (s.readV y).toNat > 255 then 1 else 0) ∧
    (∀ r, r ≠ x → r ≠ 15 → t.readV r = s.readV r) ∧ t.pc = s.pc + 2 ∧ SameExcept [.registers, .pc] s t

/-- 8xy5 and 8xy7: V[x] is the difference mod 256 and VF tells whether the minuend is strictly greater, both of the values before the
instruction; where x is 0xF the result is what VF ends holding (42_family_8_alu.md 8xy5, 8xy7; the aliased cases are
decision D4). -/
def Obligations.SubtractsWriteDifferenceAndStrictGreater : Prop :=
  ∀ (x y : RegIdx) (s : State),
    EncodedAs (0x8005 + 256 * x.val + 16 * y.val) (.sub x y) ∧ EncodedAs (0x8007 + 256 * x.val + 16 * y.val) (.subn x y) ∧
    (∃ t, exec (.sub x y) s = .next t ∧
      (t.readV x).toNat = ((s.readV x).toNat + 256 - (s.readV y).toNat) % 256 ∧
      (x ≠ 15 → t.readV 15 = if (s.readV x).toNat > (s.readV y).toNat then 1 else 0) ∧
      (∀ r, r ≠ x → r ≠ 15 → t.readV r = s.readV r) ∧ t.pc = s.pc + 2 ∧ SameExcept [.registers, .pc] s t) ∧
    (∃ t, exec (.subn x y) s = .next t ∧
      (t.readV x).toNat = ((s.readV y).toNat + 256 - (s.readV x).toNat) % 256 ∧
      (x ≠ 15 → t.readV 15 = if (s.readV y).toNat > (s.readV x).toNat then 1 else 0) ∧
      (∀ r, r ≠ x → r ≠ 15 → t.readV r = s.readV r) ∧ t.pc = s.pc + 2 ∧ SameExcept [.registers, .pc] s t)

/-- 8xy6 and 8xyE shift V[x], whatever y is, and VF is the bit shifted out; where x is 0xF the result is what VF ends holding
(42_family_8_alu.md 8xy6, 8xyE; 30_encoding.md section 6; the aliased case is decision D4). -/
def Obligations.ShiftsIgnoreVyAndKeepTheBitOut : Prop :=
  ∀ (x y : RegIdx) (s : State),
    EncodedAs (0x8006 + 256 * x.val + 16 * y.val) (.shr x y) ∧ EncodedAs (0x800E + 256 * x.val + 16 * y.val) (.shl x y) ∧
    (∃ t, exec (.shr x y) s = .next t ∧ (t.readV x).toNat = (s.readV x).toNat / 2 ∧
      (x ≠ 15 → (t.readV 15).toNat = (s.readV x).toNat % 2) ∧
      (∀ r, r ≠ x → r ≠ 15 → t.readV r = s.readV r) ∧ t.pc = s.pc + 2 ∧ SameExcept [.registers, .pc] s t) ∧
    (∃ t, exec (.shl x y) s = .next t ∧ (t.readV x).toNat = 2 * (s.readV x).toNat % 256 ∧
      (x ≠ 15 → (t.readV 15).toNat = (s.readV x).toNat / 128) ∧
      (∀ r, r ≠ x → r ≠ 15 → t.readV r = s.readV r) ∧ t.pc = s.pc + 2 ∧ SameExcept [.registers, .pc] s t)

/-! ## The index register, the timers, the random source -/

/-- Annn, Fx1E and Fx29 write I with nnn, with I + V[x] mod 65536 and with V[x] * 5, set no flag and change nothing else but PC
(R101, R119, R120). -/
def Obligations.IndexWritesChangeOnlyI : Prop :=
  ∀ (x : RegIdx) (nnn : Word), nnn.toNat < 4096 →
    EncodedAs (0xA000 + nnn.toNat) (.ldIdx nnn) ∧ EncodedAs (0xF01E + 256 * x.val) (.addIdx x) ∧
    EncodedAs (0xF029 + 256 * x.val) (.ldF x) ∧
    ∀ s : State,
      (∃ t, exec (.ldIdx nnn) s = .next t ∧ t.i = nnn ∧ t.pc = s.pc + 2 ∧ SameExcept [.index, .pc] s t) ∧
      (∃ t, exec (.addIdx x) s = .next t ∧ t.i.toNat = (s.i.toNat + (s.readV x).toNat) % 65536 ∧ t.pc = s.pc + 2 ∧
        SameExcept [.index, .pc] s t) ∧
      (∃ t, exec (.ldF x) s = .next t ∧ t.i.toNat = (s.readV x).toNat * 5 ∧ t.pc = s.pc + 2 ∧
        SameExcept [.index, .pc] s t)

/-- Fx07 reads DT into V[x], Fx15 and Fx18 write V[x] to DT and to ST, sound_active following ST at once; nothing else but PC
changes (R115, R117, R118). -/
def Obligations.TimerMovesChangeOnlyTheirDestination : Prop :=
  ∀ x : RegIdx,
    EncodedAs (0xF007 + 256 * x.val) (.ldVxDt x) ∧ EncodedAs (0xF015 + 256 * x.val) (.ldDtVx x) ∧
    EncodedAs (0xF018 + 256 * x.val) (.ldStVx x) ∧
    ∀ s : State,
      (∃ t, exec (.ldVxDt x) s = .next t ∧ t.readV x = s.dt ∧ (∀ r, r ≠ x → t.readV r = s.readV r) ∧ t.pc = s.pc + 2 ∧
        SameExcept [.registers, .pc] s t) ∧
      (∃ t, exec (.ldDtVx x) s = .next t ∧ t.dt = s.readV x ∧ t.pc = s.pc + 2 ∧ SameExcept [.delay, .pc] s t) ∧
      (∃ t, exec (.ldStVx x) s = .next t ∧ t.st = s.readV x ∧ (soundActive t = true ↔ s.readV x ≠ 0) ∧ t.pc = s.pc + 2 ∧
        SameExcept [.sound, .pc] s t)

/-- Cxnn takes one draw, whatever byte it is, and writes it under the mask to V[x]; what the feed supplies is what is drawn, and
with no feed the draw is the free value of its number (43_family_9-C_misc.md Cxnn; decision D16, log 3). -/
def Obligations.RandomIsOneDrawUnderTheMask : Prop :=
  ∀ (x : RegIdx) (nn : Byte) (s : State), EncodedAs (0xC000 + 256 * x.val + nn.toNat) (.rnd x nn) ∧
    ∃ (t : State) (draw : Byte), exec (.rnd x nn) s = .next t ∧
    t.readV x = draw &&& nn ∧ (∀ b rest, s.env.randFeed = b :: rest → draw = b ∧ t.env.randFeed = rest) ∧
    (s.env.randFeed = [] → draw = Config.rand s.env.draws ∧ t.env.randFeed = []) ∧
    t.env.draws = s.env.draws + 1 ∧ t.env.schedule = s.env.schedule ∧ t.env.outputs = s.env.outputs ∧
    t.env.font = s.env.font ∧ (∀ r, r ≠ x → t.readV r = s.readV r) ∧ t.pc = s.pc + 2 ∧
    SameExcept [.registers, .pc, .environment] s t

/-! ## Memory instructions -/

/-- Fx33 stores the three decimal digits of V[x] at I, I + 1 and I + 2, hundreds first; no other byte and nothing else but PC changes
(46_family_F_timer_index_memory.md Fx33; the range of I is decision D10). -/
def Obligations.BcdStoresThreeDigits : Prop :=
  ∀ (x : RegIdx) (s : State), EncodedAs (0xF033 + 256 * x.val) (.ldB x) ∧
    (s.i.toNat + 2 < 4096 → ∃ t, exec (.ldB x) s = .next t ∧
      (t.mem.read s.i.toNat).toNat = (s.readV x).toNat / 100 ∧
      (t.mem.read (s.i.toNat + 1)).toNat = (s.readV x).toNat / 10 % 10 ∧
      (t.mem.read (s.i.toNat + 2)).toNat = (s.readV x).toNat % 10 ∧
      (∀ a, a < s.i.toNat ∨ s.i.toNat + 2 < a → t.mem.read a = s.mem.read a) ∧ t.pc = s.pc + 2 ∧ SameExcept [.memory, .pc] s t)

/-- Fx55 stores V[0] to V[x] at I to I + x, leaves I, every other byte and everything else but PC
(46_family_F_timer_index_memory.md Fx55; the range of I is decision D10). -/
def Obligations.StoreRegistersWritesTheBlock : Prop :=
  ∀ (x : RegIdx) (s : State), EncodedAs (0xF055 + 256 * x.val) (.stRegs x) ∧
    (s.i.toNat + x.val < 4096 → ∃ t, exec (.stRegs x) s = .next t ∧
      (∀ r : RegIdx, r ≤ x → t.mem.read (s.i.toNat + r.val) = s.readV r) ∧
      (∀ a, a < s.i.toNat ∨ s.i.toNat + x.val < a → t.mem.read a = s.mem.read a) ∧ t.pc = s.pc + 2 ∧
      SameExcept [.memory, .pc] s t)

/-- Fx65 loads V[0] to V[x] from I to I + x, leaves I, the registers above x, memory and everything else but PC
(46_family_F_timer_index_memory.md Fx65; the range of I is decision D10). -/
def Obligations.LoadRegistersReadsTheBlock : Prop :=
  ∀ (x : RegIdx) (s : State), EncodedAs (0xF065 + 256 * x.val) (.ldRegs x) ∧
    (s.i.toNat + x.val < 4096 → ∃ t, exec (.ldRegs x) s = .next t ∧
      (∀ r : RegIdx, t.readV r = if r ≤ x then s.mem.read (s.i.toNat + r.val) else s.readV r) ∧ t.pc = s.pc + 2 ∧
      SameExcept [.registers, .pc] s t)

/-- Fx65 after Fx55 with the same x and I gives the stored registers back, whatever the registers held in between
(46_family_F_timer_index_memory.md Fx65). -/
def Obligations.LoadAfterStoreRestoresRegisters : Prop :=
  ∀ (x : RegIdx) (s t u : State), s.i.toNat + x.val < 4096 → exec (.stRegs x) s = .next t → Same .memory t u → u.i = t.i →
    ∃ w, exec (.ldRegs x) u = .next w ∧ ∀ r : RegIdx, w.readV r = if r ≤ x then s.readV r else u.readV r

/-- The four instructions that reach memory take AddressOutOfRange exactly where their range passes the end, with the lowest address
out of range recorded and nothing stored, loaded or drawn (60_exceptions.md section 5; decisions D5, D10, D23). -/
def Obligations.RangeFaultsStoreNothing : Prop :=
  ∀ (x y : RegIdx) (n : Nat) (s : State),
    ((n > 0 ∧ s.i.toNat + (n - 1) ≥ 4096) ↔ ∃ t, exec (.drw x y n) s = .next t ∧
      FaultTaken .addressOutOfRange (some (encode (.drw x y n))) (some (max s.i.toNat 4096)) s t) ∧
    (s.i.toNat + 2 ≥ 4096 ↔ ∃ t, exec (.ldB x) s = .next t ∧
      FaultTaken .addressOutOfRange (some (encode (.ldB x))) (some (max s.i.toNat 4096)) s t) ∧
    (s.i.toNat + x.val ≥ 4096 ↔ ∃ t, exec (.stRegs x) s = .next t ∧
      FaultTaken .addressOutOfRange (some (encode (.stRegs x))) (some (max s.i.toNat 4096)) s t) ∧
    (s.i.toNat + x.val ≥ 4096 ↔ ∃ t, exec (.ldRegs x) s = .next t ∧
      FaultTaken .addressOutOfRange (some (encode (.ldRegs x))) (some (max s.i.toNat 4096)) s t)

/-- A byte that Fx55 or Fx33 stores at either byte of the next instruction, from whatever I, is what the next fetch reads there; a
byte of it that they do not store is fetched as it was (20_memory.md section 9, 70_reset_and_hazards.md section 2). -/
def Obligations.StoredBytesAreFetchedNext : Prop :=
  ∀ (x : RegIdx) (s : State), s.pc.toNat + 3 < 4096 →
    (s.i.toNat + x.val < 4096 → ∃ t op, exec (.stRegs x) s = .next t ∧ t.fetch = .ok op ∧
      (∀ r : RegIdx, r ≤ x → s.i.toNat + r.val = s.pc.toNat + 2 → op.toNat / 256 = (s.readV r).toNat) ∧
      (∀ r : RegIdx, r ≤ x → s.i.toNat + r.val = s.pc.toNat + 3 → op.toNat % 256 = (s.readV r).toNat) ∧
      (s.pc.toNat + 2 < s.i.toNat ∨ s.i.toNat + x.val < s.pc.toNat + 2 →
        op.toNat / 256 = (s.mem.read (s.pc.toNat + 2)).toNat) ∧
      (s.pc.toNat + 3 < s.i.toNat ∨ s.i.toNat + x.val < s.pc.toNat + 3 →
        op.toNat % 256 = (s.mem.read (s.pc.toNat + 3)).toNat)) ∧
    (s.i.toNat + 2 < 4096 → ∃ t op, exec (.ldB x) s = .next t ∧ t.fetch = .ok op ∧
      (∀ k < 3, s.i.toNat + k = s.pc.toNat + 2 → op.toNat / 256 = (s.readV x).toNat / 10 ^ (2 - k) % 10) ∧
      (∀ k < 3, s.i.toNat + k = s.pc.toNat + 3 → op.toNat % 256 = (s.readV x).toNat / 10 ^ (2 - k) % 10) ∧
      (s.pc.toNat + 2 < s.i.toNat ∨ s.i.toNat + 2 < s.pc.toNat + 2 →
        op.toNat / 256 = (s.mem.read (s.pc.toNat + 2)).toNat) ∧
      (s.pc.toNat + 3 < s.i.toNat ∨ s.i.toNat + 2 < s.pc.toNat + 3 →
        op.toNat % 256 = (s.mem.read (s.pc.toNat + 3)).toNat))

/-- A byte written at a valid address is what a later read of it gives, every other byte reads as before, and a read at an address
that does not exist fails (20_memory.md sections 2 and 6); that the store operation leaves memory as it is at such an address, where
no instruction comes, is the model's choice (log 11). -/
def Obligations.MemoryReadsTheLatestWrite : Prop :=
  ∀ (m : Memory) (a b : Nat) (v : Byte),
    (m.write a v).read b = (if b = a ∧ a < 4096 then v else m.read b) ∧
    (a < 4096 → (m.write a v).readByte a = .ok v) ∧ (4096 ≤ a → m.readByte a = .error a)

/-- Two memories in the canonical form that read alike at every address are equal data. -/
def Obligations.CanonicalMemoriesReadingAlikeAreEqual : Prop :=
  ∀ m m' : Memory, m.wf = true → m'.wf = true → (∀ a, m.read a = m'.read a) → m = m'

/-! ## The sprite -/

/-- Dxyn in closed form: with S the targets of the sprite bits that are 1, every pixel of S is toggled and no other, and VF is 1
where some pixel of S was on before, else 0; with n = 0 nothing is read and VF is 0 (44_family_D_sprite.md sections on the
instruction, wrapping and collision; latching before VF is written is decision D4). -/
def Obligations.DrawTogglesExactlyTheSprite : Prop :=
  ∀ (x y : RegIdx) (n : Nat) (s : State), n < 16 → EncodedAs (0xD000 + 256 * x.val + 16 * y.val + n) (.drw x y n) ∧
    ((n = 0 ∨ s.i.toNat + (n - 1) < 4096) → ∃ t, exec (.drw x y n) s = .next t ∧
      (∀ r c, spriteCovers s (s.readV x) (s.readV y) n r c → t.pixel r c = !(s.pixel r c)) ∧
      (∀ r c, ¬ spriteCovers s (s.readV x) (s.readV y) n r c → t.pixel r c = s.pixel r c) ∧
      ((∃ r c, spriteCovers s (s.readV x) (s.readV y) n r c ∧ s.pixel r c = true) → t.readV 15 = 1) ∧
      ((∀ r c, spriteCovers s (s.readV x) (s.readV y) n r c → s.pixel r c = false) → t.readV 15 = 0) ∧
      (∀ r, r ≠ 15 → t.readV r = s.readV r) ∧ t.pc = s.pc + 2 ∧ SameExcept [.screen, .registers, .pc] s t)

/-- Drawing a sprite twice at the same coordinates, which VF may be one of, gives the framebuffer back; over an empty background a
sprite with a bit set gives VF = 0, then VF = 1 (44_family_D_sprite.md section on collision; 95_test_vectors.md S7). -/
def Obligations.DrawingTwiceRestoresTheScreen : Prop :=
  ∀ (x y : RegIdx) (n : Nat) (s t : State), n < 16 → (n = 0 ∨ s.i.toNat + (n - 1) < 4096) →
    exec (.drw x y n) s = .next t → t.readV x = s.readV x → t.readV y = s.readV y →
    ∃ u, exec (.drw x y n) t = .next u ∧ (∀ r c, u.pixel r c = s.pixel r c) ∧
      ((∀ r c, s.pixel r c = false) → (∃ r c, spriteCovers s (s.readV x) (s.readV y) n r c) →
        t.readV 15 = 0 ∧ u.readV 15 = 1)

/-! ## Keys and the key wait -/

/-- Fx0A only enters AwaitingKey(x); then Steps, Ticks, KeyUp and KeyDown of a key already down do not end the wait, and KeyDown of a
released key puts its index in V[x] and the core back to Running at the next instruction (46_family_F_timer_index_memory.md Fx0A,
60_exceptions.md sections 9 and 10; the edge is decision D15). -/
def Obligations.KeyWaitEndsOnAPressEdge : Prop :=
  ∀ (x : RegIdx) (s : State), EncodedAs (0xF00A + 256 * x.val) (.ldVxK x) ∧
    ∃ t, exec (.ldVxK x) s = .next t ∧ t.mode = .awaitingKey x ∧ t.pc = s.pc + 2 ∧
    SameExcept [.mode, .pc] s t ∧ cycle t = .next t ∧ (tick t).mode = .awaitingKey x ∧ (tick t).pc = t.pc ∧
    (∀ k, (keyUp k t).mode = .awaitingKey x) ∧ (∀ k, t.key k = true → Same .registers t (keyDown k t) ∧
      (keyDown k t).mode = .awaitingKey x) ∧
    (∀ k, t.key k = false → (keyDown k t).mode = .running ∧ (keyDown k t).readV x = BitVec.ofNat 8 k.val ∧
      (keyDown k t).key k = true ∧ (keyDown k t).pc = s.pc + 2 ∧ ∀ r, r ≠ x → (keyDown k t).readV r = s.readV r)

/-- KeyDown(k) sets KEY[k] and KeyUp(k) clears it, unless the core is Faulted; neither moves PC, and only a press edge during a key
wait changes anything more (60_exceptions.md section 9; decision D15). -/
def Obligations.KeyEventsSetAndClearOneKey : Prop :=
  ∀ (k : KeyIdx) (s : State), s.mode ≠ .faulted →
    (keyDown k s).key k = true ∧ (keyUp k s).key k = false ∧
    (∀ j, j ≠ k → (keyDown k s).key j = s.key j ∧ (keyUp k s).key j = s.key j) ∧
    SameExcept [.keys] s (keyUp k s) ∧ SameExcept [.keys, .registers, .mode] s (keyDown k s) ∧
    ((s.mode = .running ∨ s.key k = true) → SameExcept [.keys] s (keyDown k s))

/-! ## The timers -/

/-- A Tick takes each timer that is above 0 down by one, independently, emits sound_pulse = (ST > 0 before it), and changes nothing
else; sound_active afterwards is ST > 0 (60_exceptions.md section 8; the outputs are decision D18, their list the model's, log 6). -/
def Obligations.TickCountsBothTimersDown : Prop :=
  ∀ s : State, s.mode ≠ .faulted →
    (tick s).dt.toNat = s.dt.toNat - 1 ∧ (tick s).st.toNat = s.st.toNat - 1 ∧
    (tick s).env = { s.env with outputs := .soundPulse (decide (s.st ≠ 0)) :: s.env.outputs } ∧
    (soundActive (tick s) = true ↔ s.st.toNat > 1) ∧ SameExcept [.delay, .sound, .environment] s (tick s)

/-- After n Ticks each timer is n lower, or 0 and no less: a timer set to v reaches 0 after exactly v Ticks (60_exceptions.md
section 8). -/
def Obligations.TicksReachZeroAndStay : Prop :=
  ∀ (n : Nat) (s : State), s.mode ≠ .faulted →
    (tick^[n] s).dt.toNat = s.dt.toNat - n ∧ (tick^[n] s).st.toNat = s.st.toNat - n ∧
    SameExcept [.delay, .sound, .environment] s (tick^[n] s)

/-! ## Faults -/

/-- A Step that takes a fatal fault leaves everything but MODE and FAULTINFO as before it, and records a fatal kind, pc0, the opcode
or none for the fetch, and an address that fits the kind (60_exceptions.md section 4; decisions D5 and D8). -/
def Obligations.FatalFaultsArePrecise : Prop :=
  ∀ s t : State, s.mode = .running → cycle s = .next t → t.mode = .faulted →
    ∃ r, t = { s with mode := .faulted, faultInfo := some r } ∧ r.kind.fatal = true ∧ r.pc = s.pc ∧ addrFits r.kind r.addr ∧
      ((r.op = none ∧ s.pc.toNat ≥ 0xFFF) ∨ ∃ op, s.fetch = .ok op ∧ r.op = some op)

/-- While Faulted, no event but Reset changes anything: a run over any schedule without a Reset only uses the schedule up
(60_exceptions.md section 4; decision D6; the schedule is the model's, log 2). -/
def Obligations.FaultedIsTerminal : Prop :=
  ∀ (n : Nat) (s : State), s.mode = .faulted → (∀ rom, Event.reset rom ∉ s.env.schedule) →
    Host.Core.run Sys2Proof.core n s = .next (s.setEnv { s.env with schedule := s.env.schedule.drop n })

/-- Only eight instructions can fault; the other 26 leave MODE as it was or enter the key wait (60_exceptions.md section 6). -/
def Obligations.OnlyEightInstructionsCanFault : Prop :=
  ∀ (i : Instr) (s t : State), exec i s = .next t → canFault i = false →
    t.faultInfo = s.faultInfo ∧ (t.mode = s.mode ∨ ∃ x, i = .ldVxK x ∧ t.mode = .awaitingKey x)

/-- Every instruction answers a next state in every state, and so does every step of the machine: nothing is refused and nothing
stops it, because the model takes every fatal fault as a next state and its type of faults is empty (log 10; 60_exceptions.md
sections 4 and 14). -/
def Obligations.EveryStepAnswersANextState : Prop :=
  (∀ (i : Instr) (s : State), ∃ t, exec i s = .next t) ∧ (∀ s : State, ∃ t, step s = .next t)

/-! ## Reset -/

/-- Reset with an image that fits: the image at 0x200, the font below 0x050, whatever the parameter FONT is, and zero elsewhere; PC
at 0x200, blank screen, Running, and the zeros of decision D3; nothing of the session before survives (70_reset_and_hazards.md section 1, 10_state.md section 13;
that the environment's part survives is the model's, log 2, 3, 4 and 6). -/
def Obligations.ResetLoadsTheImage : Prop :=
  ∀ (rom : List Byte) (e : Environment), rom.length ≤ 3584 →
    (∀ a, (State.resetWith rom e).mem.read a =
      if 0x200 ≤ a ∧ a < 0x200 + rom.length then rom.getD (a - 0x200) 0 else if a < 0x050 then e.font.toList.getD a 0 else 0) ∧
    (State.resetWith rom e).pc = 0x0200 ∧ (∀ r c, (State.resetWith rom e).pixel r c = false) ∧
    (State.resetWith rom e).mode = .running ∧ (State.resetWith rom e).faultInfo = none ∧
    (∀ r, (State.resetWith rom e).readV r = 0) ∧ (State.resetWith rom e).i = 0 ∧ (State.resetWith rom e).sp = 0 ∧
    (State.resetWith rom e).dt = 0 ∧ (State.resetWith rom e).st = 0 ∧ (∀ k, (State.resetWith rom e).key k = false) ∧
    (State.resetWith rom e).env = e

/-- Reset with an image that is too long loads nothing and is Faulted(RomTooLarge) with the length recorded; all else is as after a
Reset with an empty image (70_reset_and_hazards.md section 1; decision D17). -/
def Obligations.OversizedImageIsRejected : Prop :=
  ∀ (rom : List Byte) (e : Environment), 3584 < rom.length →
    (State.resetWith rom e).mode = .faulted ∧
    (State.resetWith rom e).faultInfo = some { kind := .romTooLarge, pc := 0x0200, op := none, addr := some rom.length } ∧
    SameExcept [.mode, .fault] (State.resetWith [] e) (State.resetWith rom e)

/-! ## Invariants -/

/-- Every step keeps memory in its canonical form (the model's own form of MEM). -/
def Obligations.StepsKeepMemoryCanonical : Prop :=
  ∀ s t : State, MemoryCanonical s → step s = .next t → MemoryCanonical t

/-- Every step keeps PC at most 0x10FE and every stack entry in use in 0x002 to 0x1000 (10_state.md section 3,
40_family_0-2_control.md 00EE, where the spec marks both as derived). -/
def Obligations.StepsKeepControlInRange : Prop :=
  ∀ s t : State, ControlInRange s → step s = .next t → ControlInRange t

/-- Every step keeps FAULTINFO in step with MODE: a record exactly while Faulted, of a fatal kind, with the frozen PC and an address
that fits its kind (10_state.md section 10, 60_exceptions.md sections 2 to 4; decisions D5, D6, D8). -/
def Obligations.StepsKeepTheFaultRecordFitting : Prop :=
  ∀ s t : State, FaultRecordFits s → step s = .next t → FaultRecordFits t

/-- The state after reset meets the three invariants, and is the state of Reset with an empty image under the default FONT (the values
it rests on: log 1, 2, 3, 4 and 6). -/
def Obligations.ResetStateMeetsTheInvariants : Prop :=
  MemoryCanonical State.reset ∧ ControlInRange State.reset ∧ FaultRecordFits State.reset ∧
    State.reset = State.resetWith [] Environment.initial

/-! ## Rules over all instructions -/

/-- No instruction changes a general register but those its rule assigns, VF being written as a side effect by six instructions only
(10_state.md section 2). -/
def Obligations.OnlyAssignedRegistersChange : Prop :=
  ∀ (i : Instr) (s t : State) (r : RegIdx), exec i s = .next t → mayWrite i r = false → t.readV r = s.readV r

/-- Which instructions may change which part, the general registers apart: the framebuffer 00E0 and Dxyn, memory Fx33 and Fx55, the
stack 2nnn and 00EE, I Annn, Fx1E and Fx29, DT Fx15, ST Fx18, the environment's part Cxnn, the keys none; MODE Fx0A and, with
FAULTINFO, the eight that can fault; and PC ends at pc0 + 2 but for jumps, calls and returns, the skips that skip (pc0 + 4) and a
fault taken (pc0, decision D5) (10_state.md sections 3 to 11, 20_memory.md section 6, 60_exceptions.md section 6). -/
def Obligations.OnlyTheNamedInstructionsWriteEachPart : Prop :=
  ∀ (i : Instr) (s t : State), exec i s = .next t →
    (Same .screen s t ∨ i = .cls ∨ ∃ x y n, i = .drw x y n) ∧
    (Same .memory s t ∨ ∃ x, i = .ldB x ∨ i = .stRegs x) ∧
    (Same .stack s t ∨ i = .ret ∨ ∃ nnn, i = .call nnn) ∧
    (Same .index s t ∨ ∃ nnn x, i = .ldIdx nnn ∨ i = .addIdx x ∨ i = .ldF x) ∧
    (Same .delay s t ∨ ∃ x, i = .ldDtVx x) ∧
    (Same .sound s t ∨ ∃ x, i = .ldStVx x) ∧
    (Same .environment s t ∨ ∃ x nn, i = .rnd x nn) ∧
    Same .keys s t ∧
    (Same .mode s t ∨ (canFault i = true ∧ t.mode = .faulted) ∨ ∃ x, i = .ldVxK x ∧ t.mode = .awaitingKey x) ∧
    (Same .fault s t ∨ (canFault i = true ∧ t.mode = .faulted)) ∧
    (t.pc = s.pc + 2 ∨ (canFault i = true ∧ t.mode = .faulted ∧ t.pc = s.pc) ∨ i = .ret ∨
      (∃ nnn, i = .jp nnn ∨ i = .call nnn ∨ i = .jpV0 nnn) ∨
      (t.pc = s.pc + 4 ∧ ∃ x y nn, i ∈ [.seI x nn, .sneI x nn, .seR x y, .sneR x y, .skp x, .sknp x]))

/-- No Step lets a program see ST, the stack cells at and above SP, FAULTINFO, the records received or the parameter FONT: from two
states that differ only there, a Step gives two states that differ only there (10_state.md sections 5, 6, 10 and 14,
60_exceptions.md section 12). -/
def Obligations.HiddenStateIsNeverSeen : Prop :=
  ∀ s s' t t' : State, LookAlike s s' → cycle s = .next t → cycle s' = .next t' → LookAlike t t'

/-- The halted condition is a fixed point of Step, and Ticks and key events keep it (70_reset_and_hazards.md section 4;
decision D25). -/
def Obligations.HaltedIsAFixedPoint : Prop :=
  ∀ s : State, Halted s → cycle s = .next s ∧ Halted (tick s) ∧ ∀ k, Halted (keyDown k s) ∧ Halted (keyUp k s)

/-- Over one period of the driver model, IPT Steps and then one Tick, a halted core does nothing but count its timers down once
(70_reset_and_hazards.md sections 3 and 4; decisions D2 and D25; the schedule is the model's, log 2). -/
def Obligations.HaltedDriverPeriodOnlyTicks : Prop :=
  ∀ (ipt : Nat) (rest : List Event) (s : State), Halted s → s.env.schedule = driverPeriod ipt ++ rest →
    Host.Core.run Sys2Proof.core (ipt + 1) s = .next (tick (s.setEnv { s.env with schedule := rest }))

/-! ## The parameter FONT -/

/-- No step changes the parameter FONT: it is fixed for the machine, and only Reset reads it (00_scope.md section 4, 10_state.md
sections 12 and 14; that it stands in the environment's part of State is the model's, log 4). -/
def Obligations.StepsKeepTheFontParameter : Prop :=
  ∀ s t : State, step s = .next t → t.env.font = s.env.font
end

