-- ==== Sys2Proof/Laws/Decode.lean ====
section
/-! SUPPORT. The decoder and the encoder as numbers: the fields of a word, what each format's mask keeps, and the parts the encoder
ORs in. -/

namespace Sys2Proof

/-! ## Fields -/

theorem fieldX_val (op : Word) : (fieldX op).val = op.toNat / 256 % 16 := by
  simp [fieldX, BitVec.extractLsb', Nat.shiftRight_eq_div_pow]

theorem fieldY_val (op : Word) : (fieldY op).val = op.toNat / 16 % 16 := by
  simp [fieldY, BitVec.extractLsb', Nat.shiftRight_eq_div_pow]

theorem fieldN_eq (op : Word) : fieldN op = op.toNat % 16 := by
  simp [fieldN, BitVec.extractLsb']

theorem fieldNN_toNat (op : Word) : (fieldNN op).toNat = op.toNat % 256 := by
  simp [fieldNN, BitVec.extractLsb']

theorem fieldNNN_toNat (op : Word) : (fieldNNN op).toNat = op.toNat % 4096 := by
  have := op.isLt
  simp [fieldNNN, BitVec.extractLsb']
  omega

/-- The opcode of two bytes, as a number (20_memory.md R43). -/
theorem opcodeOf_toNat (high low : Byte) : (opcodeOf high low).toNat = high.toNat * 256 + low.toNat := by
  have := low.isLt
  rw [opcodeOf, BitVec.toNat_append, ← Nat.shiftLeft_add_eq_or_of_lt low.isLt, Nat.shiftLeft_eq]

/-- The two bytes of a word give it back. -/
theorem opcodeOf_bytes (op : Word) : opcodeOf (highByte op) (lowByte op) = op := by
  apply BitVec.eq_of_toNat_eq
  have := op.isLt
  rw [opcodeOf_toNat]
  simp [highByte, lowByte, BitVec.extractLsb', Nat.shiftRight_eq_div_pow]
  omega

/-! ## Masks -/

/-- The mask 0xF000 keeps the class. -/
theorem mask_class (op : Word) : (op &&& 0xF000#16).toNat = op.toNat / 4096 * 4096 := by
  have shifted : op &&& 0xF000#16 = (op >>> 12) <<< 12 := by
    ext i h
    interval_cases i <;> simp [BitVec.getElem_shiftLeft]
  have := op.isLt
  rw [shifted]
  simp [Nat.shiftRight_eq_div_pow, Nat.shiftLeft_eq]
  omega

/-- A mask of `k` low bits keeps the remainder by `2 ^ k`. -/
theorem mask_low (op : Word) (k : Nat) (hk : k ≤ 16) : (op &&& BitVec.ofNat 16 (2 ^ k - 1)).toNat = op.toNat % 2 ^ k := by
  have h1 : 2 ^ k ≤ 2 ^ 16 := Nat.pow_le_pow_right (by omega) hk
  have h0 := Nat.two_pow_pos k
  rw [BitVec.toNat_and, BitVec.toNat_ofNat, Nat.mod_eq_of_lt (by omega), Nat.and_two_pow_sub_one_eq_mod]

/-- A mask of the class and `k` low bits, `k` at most 12, keeps the class and the remainder. -/
theorem mask_class_low (op : Word) (k : Nat) (hk : k ≤ 12) :
    (op &&& (0xF000#16 ||| BitVec.ofNat 16 (2 ^ k - 1))).toNat = op.toNat / 4096 * 4096 + op.toNat % 2 ^ k := by
  have h1 : 2 ^ k ≤ 2 ^ 12 := Nat.pow_le_pow_right (by omega) hk
  have h2 : op.toNat % 2 ^ k < 2 ^ 12 := lt_of_lt_of_le (Nat.mod_lt _ (Nat.two_pow_pos k)) h1
  rw [BitVec.and_or_distrib_left, BitVec.toNat_or, mask_class, mask_low op k (by omega),
    show op.toNat / 4096 * 4096 = 2 ^ 12 * (op.toNat / 4096) by omega, ← Nat.two_pow_add_eq_or_of_lt h2]

theorem fits_iff_toNat (op mask bits : Word) : (op &&& mask == bits) = decide ((op &&& mask).toNat = bits.toNat) := by
  rw [Bool.eq_iff_iff, beq_iff_eq, decide_eq_true_eq, BitVec.toNat_inj]

theorem Row.fits_whole (bits : Word) (i : Instr) (op : Word) :
    (Row.whole bits i).fits op = decide (op.toNat = bits.toNat) := by
  rw [Row.fits, Row.whole, fits_iff_toNat, show (0xFFFF : Word) = BitVec.ofNat 16 (2 ^ 16 - 1) from rfl,
    mask_low op 16 (by omega), Nat.mod_eq_of_lt op.isLt]

theorem Row.fits_address (bits : Word) (f : Word → Instr) (op : Word) :
    (Row.address bits f).fits op = decide (op.toNat / 4096 * 4096 = bits.toNat) := by
  rw [Row.fits, Row.address, fits_iff_toNat, ← mask_class]
  rfl

theorem Row.fits_regByte (bits : Word) (f : RegIdx → Byte → Instr) (op : Word) :
    (Row.regByte bits f).fits op = decide (op.toNat / 4096 * 4096 = bits.toNat) := by
  rw [Row.fits, Row.regByte, fits_iff_toNat, ← mask_class]
  rfl

theorem Row.fits_regReg (bits : Word) (f : RegIdx → RegIdx → Instr) (op : Word) :
    (Row.regReg bits f).fits op = decide (op.toNat / 4096 * 4096 + op.toNat % 16 = bits.toNat) := by
  rw [Row.fits, Row.regReg, fits_iff_toNat, show (0xF00F : Word) = 0xF000#16 ||| BitVec.ofNat 16 (2 ^ 4 - 1) from rfl,
    mask_class_low op 4 (by omega)]
  rfl

theorem Row.fits_regRegNibble (bits : Word) (f : RegIdx → RegIdx → Nat → Instr) (op : Word) :
    (Row.regRegNibble bits f).fits op = decide (op.toNat / 4096 * 4096 = bits.toNat) := by
  rw [Row.fits, Row.regRegNibble, fits_iff_toNat, ← mask_class]
  rfl

theorem Row.fits_regFunct (bits : Word) (f : RegIdx → Instr) (op : Word) :
    (Row.regFunct bits f).fits op = decide (op.toNat / 4096 * 4096 + op.toNat % 256 = bits.toNat) := by
  rw [Row.fits, Row.regFunct, fits_iff_toNat, show (0xF0FF : Word) = 0xF000#16 ||| BitVec.ofNat 16 (2 ^ 8 - 1) from rfl,
    mask_class_low op 8 (by omega)]
  rfl

/-- Any two rows of the opcode map disagree in a bit that both masks fix (30_encoding.md R64). -/
theorem opcodeMap_conflicts :
    opcodeMap.Pairwise (fun r r' => (r.bits ^^^ r'.bits) &&& (r.mask &&& r'.mask) ≠ 0) := by
  decide

/-! ## The parts the encoder ORs in -/

theorem placeX_toNat (x : RegIdx) : (placeX x).toNat = 256 * x.val := by
  revert x
  decide

theorem placeY_toNat (y : RegIdx) : (placeY y).toNat = 16 * y.val := by
  revert y
  decide

/-- ORing parts that share no bit is adding them. -/
theorem or_toNat_of_disjoint (a b : Word) (h : a &&& b = 0) (hs : a.toNat + b.toNat < 65536) :
    (a ||| b).toNat = a.toNat + b.toNat := by
  rw [← BitVec.add_eq_or_of_and_eq_zero a b h, BitVec.toNat_add, Nat.mod_eq_of_lt hs]

theorem placeX_and_byte (x : RegIdx) (nn : Byte) : placeX x &&& nn.zext = 0 := by
  ext i h
  interval_cases i <;> simp [placeX]

/-- The word of format A as a number. -/
theorem address_toNat (k : Fin 16) (nnn : Word) (h : nnn.toNat < 4096) :
    (BitVec.ofNat 16 (4096 * k.val) ||| nnn).toNat = 4096 * k.val + nnn.toNat := by
  rw [BitVec.toNat_or, BitVec.toNat_ofNat, Nat.mod_eq_of_lt (by omega), show 4096 * k.val = 2 ^ 12 * k.val by omega,
    ← Nat.two_pow_add_eq_or_of_lt (by omega)]

/-- The word of format XI as a number. -/
theorem regByte_toNat (k : Fin 16) (x : RegIdx) (nn : Byte) :
    (BitVec.ofNat 16 (4096 * k.val) ||| placeX x ||| nn.zext).toNat = 4096 * k.val + 256 * x.val + nn.toNat := by
  have hx : (BitVec.ofNat 16 (4096 * k.val) ||| placeX x).toNat = 4096 * k.val + 256 * x.val := by
    rw [address_toNat k _ (by rw [placeX_toNat]; omega), placeX_toNat]
  have hn : nn.zext.toNat = nn.toNat := BitVec.toNat_setWidth_of_le (by omega)
  have := nn.isLt
  rw [BitVec.toNat_or, hx, hn, show 4096 * k.val + 256 * x.val = 2 ^ 8 * (16 * k.val + x.val) by omega,
    ← Nat.two_pow_add_eq_or_of_lt nn.isLt]

end Sys2Proof
end

