-- ==== Sys2Proof/Laws/Memory.lean ====
section
/-! SUPPORT. The laws of memory: a read after a write, what a write leaves, and that every operation keeps the canonical form. -/

namespace Sys2Proof.Machine

@[simp] theorem Memory.read_nil (a : Nat) : Memory.read [] a = resetByte a := rfl

theorem Memory.read_cons (b : Nat) (w : Byte) (rest : Memory) (a : Nat) :
    Memory.read ((b, w) :: rest) a = if a = b then w else Memory.read rest a := rfl

theorem Memory.read_insert (m : Memory) (a b : Nat) (v : Byte) :
    (m.insert a v).read b = if b = a then v else m.read b := by
  induction m with
  | nil => simp [Memory.insert, Memory.read_cons]
  | cons c rest ih =>
    obtain ⟨k, w⟩ := c
    simp only [Memory.insert]
    split
    · simp only [Memory.read_cons]
    · split
      · subst_vars
        simp only [Memory.read_cons]
        split <;> simp_all
      · simp only [Memory.read_cons, ih]
        split
        · split
          · omega
          · rfl
        · rfl

theorem Memory.read_erase (m : Memory) (a b : Nat) :
    (m.erase a).read b = if b = a then resetByte b else m.read b := by
  induction m with
  | nil => simp [Memory.erase]
  | cons c rest ih =>
    obtain ⟨k, w⟩ := c
    simp only [Memory.erase] at ih ⊢
    by_cases hk : k = a
    · rw [List.filter_cons_of_neg (by simp [hk]), ih, Memory.read_cons]
      split <;> simp_all
    · rw [List.filter_cons_of_pos (by simp [hk]), Memory.read_cons, ih, Memory.read_cons]
      split
      · split
        · omega
        · rfl
      · rfl

/-- A read after a write: the byte written at its address, every other byte as before; an address that does not exist takes none. -/
theorem Memory.read_write (m : Memory) (a b : Nat) (v : Byte) :
    (m.write a v).read b = if b = a ∧ a < 4096 then v else m.read b := by
  unfold Memory.write
  split
  · split
    · rw [Memory.read_erase]
      split <;> simp_all
    · rw [Memory.read_insert]
      split <;> simp_all
  · simp_all

theorem Memory.wfAbove_cons (low : Option Nat) (a : Nat) (v : Byte) (rest : Memory) :
    Memory.wfAbove low ((a, v) :: rest) = true ↔
      (aboveLow low a = true ∧ a < Config.memSize ∧ v ≠ resetByte a) ∧ Memory.wfAbove (some a) rest = true := by
  simp only [Memory.wfAbove, Bool.and_eq_true, decide_eq_true_eq, and_assoc]

theorem aboveLow_mono {low low' : Option Nat} {a : Nat} (h : ∀ l', low' = some l' → ∃ l, low = some l ∧ l' ≤ l)
    (ha : aboveLow low a = true) : aboveLow low' a = true := by
  cases low' with
  | none => rfl
  | some l' =>
    obtain ⟨l, rfl, hl⟩ := h l' rfl
    simp only [aboveLow, decide_eq_true_eq] at ha ⊢
    omega

theorem Memory.wfAbove_mono (m : Memory) {low low' : Option Nat}
    (h : ∀ l', low' = some l' → ∃ l, low = some l ∧ l' ≤ l) (hm : Memory.wfAbove low m = true) :
    Memory.wfAbove low' m = true := by
  cases m with
  | nil => rfl
  | cons c rest =>
    obtain ⟨a, v⟩ := c
    rw [Memory.wfAbove_cons] at hm ⊢
    exact ⟨⟨aboveLow_mono h hm.1.1, hm.1.2⟩, hm.2⟩

theorem Memory.wfAbove_insert (m : Memory) (low : Option Nat) (a : Nat) (v : Byte)
    (hlow : aboveLow low a = true) (ha : a < Config.memSize) (hv : v ≠ resetByte a)
    (hm : Memory.wfAbove low m = true) : Memory.wfAbove low (m.insert a v) = true := by
  induction m generalizing low with
  | nil => exact (Memory.wfAbove_cons low a v []).2 ⟨⟨hlow, ha, hv⟩, rfl⟩
  | cons c rest ih =>
    obtain ⟨b, w⟩ := c
    have hc := (Memory.wfAbove_cons low b w rest).1 hm
    simp only [Memory.insert]
    split
    · rename_i hab
      refine (Memory.wfAbove_cons low a v _).2 ⟨⟨hlow, ha, hv⟩, (Memory.wfAbove_cons _ b w rest).2 ⟨⟨?_, hc.1.2⟩, hc.2⟩⟩
      simpa [aboveLow] using hab
    · split
      · rename_i heq
        subst heq
        exact (Memory.wfAbove_cons low a v rest).2 ⟨⟨hlow, ha, hv⟩, hc.2⟩
      · refine (Memory.wfAbove_cons low b w _).2 ⟨hc.1, ih (some b) ?_ hc.2⟩
        simp only [aboveLow, decide_eq_true_eq]
        omega

theorem Memory.wfAbove_erase (m : Memory) (low : Option Nat) (a : Nat)
    (hm : Memory.wfAbove low m = true) : Memory.wfAbove low (m.erase a) = true := by
  induction m generalizing low with
  | nil => rfl
  | cons c rest ih =>
    obtain ⟨b, w⟩ := c
    have hc := (Memory.wfAbove_cons low b w rest).1 hm
    simp only [Memory.erase] at ih ⊢
    by_cases hk : b = a
    · rw [List.filter_cons_of_neg (by simp [hk])]
      refine Memory.wfAbove_mono _ ?_ (ih (some b) hc.2)
      rintro l' rfl
      have := hc.1.1
      simp only [aboveLow, decide_eq_true_eq] at this
      exact ⟨b, rfl, by omega⟩
    · rw [List.filter_cons_of_pos (by simp [hk])]
      exact (Memory.wfAbove_cons low b w _).2 ⟨hc.1, ih (some b) hc.2⟩

/-- The empty memory, which is the one after reset, is canonical. -/
theorem Memory.wf_nil : Memory.wf [] = true := rfl

/-- A write keeps the canonical form. -/
theorem Memory.wf_write (m : Memory) (a : Nat) (v : Byte) (hm : m.wf = true) : (m.write a v).wf = true := by
  unfold Memory.write
  split
  · split
    · exact Memory.wfAbove_erase m none a hm
    · exact Memory.wfAbove_insert m none a v rfl ‹_› ‹_› hm
  · exact hm

/-- Storing bytes keeps the canonical form. -/
theorem Memory.wf_writeBytes (bs : List Byte) (m : Memory) (a : Nat) (hm : m.wf = true) :
    (m.writeBytes a bs).wf = true := by
  induction bs generalizing m a with
  | nil => exact hm
  | cons b rest ih => exact ih _ _ (Memory.wf_write m a b hm)

/-- Reading after storing bytes at `a`, within the address space: the stored byte inside the block, the old byte outside. -/
theorem Memory.read_writeBytes (bs : List Byte) (m : Memory) (a c : Nat) (h : a + bs.length ≤ 4096) :
    (m.writeBytes a bs).read c = if a ≤ c ∧ c < a + bs.length then bs.getD (c - a) 0 else m.read c := by
  induction bs generalizing m a with
  | nil =>
    simp only [Memory.writeBytes, List.length_nil]
    rw [if_neg (by omega)]
  | cons b rest ih =>
    simp only [List.length_cons] at h ⊢
    simp only [Memory.writeBytes]
    rw [ih _ _ (by omega), Memory.read_write]
    by_cases hc : c = a
    · subst hc
      rw [if_neg (by omega), if_pos ⟨rfl, by omega⟩, if_pos (by omega)]
      simp
    · rw [if_neg (show ¬ (c = a ∧ a < 4096) from fun h' => hc h'.1)]
      by_cases hin : a + 1 ≤ c ∧ c < a + 1 + rest.length
      · rw [if_pos hin, if_pos (by omega), show c - a = (c - (a + 1)) + 1 by omega, List.getD_cons_succ]
      · rw [if_neg hin, if_neg (by omega)]

/-- Where `readByte` answers, and with what. -/
theorem Memory.readByte_eq (m : Memory) (a : Nat) :
    m.readByte a = if a < 4096 then .ok (m.read a) else .error a := rfl

/-- Where `readWord` answers, with what, and which address it offends with (20_memory.md R43). -/
theorem Memory.readWord_eq (m : Memory) (a : Nat) :
    m.readWord a =
      if a + 1 < 4096 then .ok (opcodeOf (m.read a) (m.read (a + 1)))
      else .error (max a 4096) := by
  unfold Memory.readWord
  rw [Memory.readByte_eq, Memory.readByte_eq]
  by_cases h1 : a + 1 < 4096
  · have h0 : a < 4096 := by omega
    simp only [h0, h1, if_true]
  · by_cases h0 : a < 4096
    · simp only [h0, h1, if_true, if_false]
      congr 1
      omega
    · simp only [h0, h1, if_false]
      congr 1
      omega

/-! ## Memory after Reset -/

/-- Under the default FONT the font lists nothing: it is what unlisted addresses read as. -/
theorem writeBytes_defaultFont : Memory.writeBytes [] Config.fontBase defaultFont.toList = [] := by decide +kernel

/-- Beyond the default font an unlisted address reads as zero. -/
theorem resetByte_above (a : Nat) (h : 80 ≤ a) : resetByte a = 0 := by
  have hl : defaultFontBytes.length = 80 := rfl
  rw [resetByte, List.getD_eq_getElem?_getD, List.getElem?_eq_none (by omega)]
  rfl

/-- The boot memory, byte by byte: the image, the font of the parameter, zero elsewhere (70_reset_and_hazards.md R160). -/
theorem read_bootMemory (f : Font) (rom : List Byte) (h : rom.length ≤ 3584) (a : Nat) :
    (bootMemory f rom).read a =
      if 0x200 ≤ a ∧ a < 0x200 + rom.length then rom.getD (a - 0x200) 0 else if a < 80 then f.toList.getD a 0 else 0 := by
  have hf : f.toList.length = 80 := Vector.length_toList
  have hb : Config.fontBase = 0 := rfl
  rw [bootMemory, Memory.read_writeBytes _ _ _ _ (by simp only [Config.programBase]; omega),
    Memory.read_writeBytes _ _ _ _ (by omega), hf, Memory.read_nil]
  by_cases ha : a < 80
  · simp [ha]
  · rw [if_neg (by omega : ¬ (Config.fontBase ≤ a ∧ a < Config.fontBase + 80)), if_neg ha, resetByte_above a (by omega)]

/-- The boot memory is canonical. -/
theorem wf_bootMemory (f : Font) (rom : List Byte) : (bootMemory f rom).wf = true :=
  Memory.wf_writeBytes _ _ _ (Memory.wf_writeBytes _ _ _ Memory.wf_nil)

end Sys2Proof.Machine
end

