-- ==== Sys2Proof/Laws/State.lean ====
section
/-! SUPPORT. One lemma per field per update of the state, true by unfolding the update. -/

namespace Sys2Proof.Machine

variable (s : State)

@[simp] theorem State.writeV_mem (x : RegIdx) (b : Byte) : (s.writeV x b).mem = s.mem := rfl
@[simp] theorem State.writeV_v (x : RegIdx) (b : Byte) : (s.writeV x b).v = s.v.set x.val b := rfl
@[simp] theorem State.writeV_i (x : RegIdx) (b : Byte) : (s.writeV x b).i = s.i := rfl
@[simp] theorem State.writeV_pc (x : RegIdx) (b : Byte) : (s.writeV x b).pc = s.pc := rfl
@[simp] theorem State.writeV_stack (x : RegIdx) (b : Byte) : (s.writeV x b).stack = s.stack := rfl
@[simp] theorem State.writeV_sp (x : RegIdx) (b : Byte) : (s.writeV x b).sp = s.sp := rfl
@[simp] theorem State.writeV_dt (x : RegIdx) (b : Byte) : (s.writeV x b).dt = s.dt := rfl
@[simp] theorem State.writeV_st (x : RegIdx) (b : Byte) : (s.writeV x b).st = s.st := rfl
@[simp] theorem State.writeV_keys (x : RegIdx) (b : Byte) : (s.writeV x b).keys = s.keys := rfl
@[simp] theorem State.writeV_fb (x : RegIdx) (b : Byte) : (s.writeV x b).fb = s.fb := rfl
@[simp] theorem State.writeV_mode (x : RegIdx) (b : Byte) : (s.writeV x b).mode = s.mode := rfl
@[simp] theorem State.writeV_faultInfo (x : RegIdx) (b : Byte) : (s.writeV x b).faultInfo = s.faultInfo := rfl
@[simp] theorem State.writeV_env (x : RegIdx) (b : Byte) : (s.writeV x b).env = s.env := rfl

@[simp] theorem State.setV_mem (v : Vector Byte 16) : (s.setV v).mem = s.mem := rfl
@[simp] theorem State.setV_v (v : Vector Byte 16) : (s.setV v).v = v := rfl
@[simp] theorem State.setV_i (v : Vector Byte 16) : (s.setV v).i = s.i := rfl
@[simp] theorem State.setV_pc (v : Vector Byte 16) : (s.setV v).pc = s.pc := rfl
@[simp] theorem State.setV_stack (v : Vector Byte 16) : (s.setV v).stack = s.stack := rfl
@[simp] theorem State.setV_sp (v : Vector Byte 16) : (s.setV v).sp = s.sp := rfl
@[simp] theorem State.setV_dt (v : Vector Byte 16) : (s.setV v).dt = s.dt := rfl
@[simp] theorem State.setV_st (v : Vector Byte 16) : (s.setV v).st = s.st := rfl
@[simp] theorem State.setV_keys (v : Vector Byte 16) : (s.setV v).keys = s.keys := rfl
@[simp] theorem State.setV_fb (v : Vector Byte 16) : (s.setV v).fb = s.fb := rfl
@[simp] theorem State.setV_mode (v : Vector Byte 16) : (s.setV v).mode = s.mode := rfl
@[simp] theorem State.setV_faultInfo (v : Vector Byte 16) : (s.setV v).faultInfo = s.faultInfo := rfl
@[simp] theorem State.setV_env (v : Vector Byte 16) : (s.setV v).env = s.env := rfl

@[simp] theorem State.setI_mem (w : Word) : (s.setI w).mem = s.mem := rfl
@[simp] theorem State.setI_v (w : Word) : (s.setI w).v = s.v := rfl
@[simp] theorem State.setI_i (w : Word) : (s.setI w).i = w := rfl
@[simp] theorem State.setI_pc (w : Word) : (s.setI w).pc = s.pc := rfl
@[simp] theorem State.setI_stack (w : Word) : (s.setI w).stack = s.stack := rfl
@[simp] theorem State.setI_sp (w : Word) : (s.setI w).sp = s.sp := rfl
@[simp] theorem State.setI_dt (w : Word) : (s.setI w).dt = s.dt := rfl
@[simp] theorem State.setI_st (w : Word) : (s.setI w).st = s.st := rfl
@[simp] theorem State.setI_keys (w : Word) : (s.setI w).keys = s.keys := rfl
@[simp] theorem State.setI_fb (w : Word) : (s.setI w).fb = s.fb := rfl
@[simp] theorem State.setI_mode (w : Word) : (s.setI w).mode = s.mode := rfl
@[simp] theorem State.setI_faultInfo (w : Word) : (s.setI w).faultInfo = s.faultInfo := rfl
@[simp] theorem State.setI_env (w : Word) : (s.setI w).env = s.env := rfl

@[simp] theorem State.setPc_mem (w : Word) : (s.setPc w).mem = s.mem := rfl
@[simp] theorem State.setPc_v (w : Word) : (s.setPc w).v = s.v := rfl
@[simp] theorem State.setPc_i (w : Word) : (s.setPc w).i = s.i := rfl
@[simp] theorem State.setPc_pc (w : Word) : (s.setPc w).pc = w := rfl
@[simp] theorem State.setPc_stack (w : Word) : (s.setPc w).stack = s.stack := rfl
@[simp] theorem State.setPc_sp (w : Word) : (s.setPc w).sp = s.sp := rfl
@[simp] theorem State.setPc_dt (w : Word) : (s.setPc w).dt = s.dt := rfl
@[simp] theorem State.setPc_st (w : Word) : (s.setPc w).st = s.st := rfl
@[simp] theorem State.setPc_keys (w : Word) : (s.setPc w).keys = s.keys := rfl
@[simp] theorem State.setPc_fb (w : Word) : (s.setPc w).fb = s.fb := rfl
@[simp] theorem State.setPc_mode (w : Word) : (s.setPc w).mode = s.mode := rfl
@[simp] theorem State.setPc_faultInfo (w : Word) : (s.setPc w).faultInfo = s.faultInfo := rfl
@[simp] theorem State.setPc_env (w : Word) : (s.setPc w).env = s.env := rfl

@[simp] theorem State.setDt_mem (b : Byte) : (s.setDt b).mem = s.mem := rfl
@[simp] theorem State.setDt_v (b : Byte) : (s.setDt b).v = s.v := rfl
@[simp] theorem State.setDt_i (b : Byte) : (s.setDt b).i = s.i := rfl
@[simp] theorem State.setDt_pc (b : Byte) : (s.setDt b).pc = s.pc := rfl
@[simp] theorem State.setDt_stack (b : Byte) : (s.setDt b).stack = s.stack := rfl
@[simp] theorem State.setDt_sp (b : Byte) : (s.setDt b).sp = s.sp := rfl
@[simp] theorem State.setDt_dt (b : Byte) : (s.setDt b).dt = b := rfl
@[simp] theorem State.setDt_st (b : Byte) : (s.setDt b).st = s.st := rfl
@[simp] theorem State.setDt_keys (b : Byte) : (s.setDt b).keys = s.keys := rfl
@[simp] theorem State.setDt_fb (b : Byte) : (s.setDt b).fb = s.fb := rfl
@[simp] theorem State.setDt_mode (b : Byte) : (s.setDt b).mode = s.mode := rfl
@[simp] theorem State.setDt_faultInfo (b : Byte) : (s.setDt b).faultInfo = s.faultInfo := rfl
@[simp] theorem State.setDt_env (b : Byte) : (s.setDt b).env = s.env := rfl

@[simp] theorem State.setSt_mem (b : Byte) : (s.setSt b).mem = s.mem := rfl
@[simp] theorem State.setSt_v (b : Byte) : (s.setSt b).v = s.v := rfl
@[simp] theorem State.setSt_i (b : Byte) : (s.setSt b).i = s.i := rfl
@[simp] theorem State.setSt_pc (b : Byte) : (s.setSt b).pc = s.pc := rfl
@[simp] theorem State.setSt_stack (b : Byte) : (s.setSt b).stack = s.stack := rfl
@[simp] theorem State.setSt_sp (b : Byte) : (s.setSt b).sp = s.sp := rfl
@[simp] theorem State.setSt_dt (b : Byte) : (s.setSt b).dt = s.dt := rfl
@[simp] theorem State.setSt_st (b : Byte) : (s.setSt b).st = b := rfl
@[simp] theorem State.setSt_keys (b : Byte) : (s.setSt b).keys = s.keys := rfl
@[simp] theorem State.setSt_fb (b : Byte) : (s.setSt b).fb = s.fb := rfl
@[simp] theorem State.setSt_mode (b : Byte) : (s.setSt b).mode = s.mode := rfl
@[simp] theorem State.setSt_faultInfo (b : Byte) : (s.setSt b).faultInfo = s.faultInfo := rfl
@[simp] theorem State.setSt_env (b : Byte) : (s.setSt b).env = s.env := rfl

@[simp] theorem State.setMem_mem (m : Memory) : (s.setMem m).mem = m := rfl
@[simp] theorem State.setMem_v (m : Memory) : (s.setMem m).v = s.v := rfl
@[simp] theorem State.setMem_i (m : Memory) : (s.setMem m).i = s.i := rfl
@[simp] theorem State.setMem_pc (m : Memory) : (s.setMem m).pc = s.pc := rfl
@[simp] theorem State.setMem_stack (m : Memory) : (s.setMem m).stack = s.stack := rfl
@[simp] theorem State.setMem_sp (m : Memory) : (s.setMem m).sp = s.sp := rfl
@[simp] theorem State.setMem_dt (m : Memory) : (s.setMem m).dt = s.dt := rfl
@[simp] theorem State.setMem_st (m : Memory) : (s.setMem m).st = s.st := rfl
@[simp] theorem State.setMem_keys (m : Memory) : (s.setMem m).keys = s.keys := rfl
@[simp] theorem State.setMem_fb (m : Memory) : (s.setMem m).fb = s.fb := rfl
@[simp] theorem State.setMem_mode (m : Memory) : (s.setMem m).mode = s.mode := rfl
@[simp] theorem State.setMem_faultInfo (m : Memory) : (s.setMem m).faultInfo = s.faultInfo := rfl
@[simp] theorem State.setMem_env (m : Memory) : (s.setMem m).env = s.env := rfl

@[simp] theorem State.setFb_mem (f : Framebuffer) : (s.setFb f).mem = s.mem := rfl
@[simp] theorem State.setFb_v (f : Framebuffer) : (s.setFb f).v = s.v := rfl
@[simp] theorem State.setFb_i (f : Framebuffer) : (s.setFb f).i = s.i := rfl
@[simp] theorem State.setFb_pc (f : Framebuffer) : (s.setFb f).pc = s.pc := rfl
@[simp] theorem State.setFb_stack (f : Framebuffer) : (s.setFb f).stack = s.stack := rfl
@[simp] theorem State.setFb_sp (f : Framebuffer) : (s.setFb f).sp = s.sp := rfl
@[simp] theorem State.setFb_dt (f : Framebuffer) : (s.setFb f).dt = s.dt := rfl
@[simp] theorem State.setFb_st (f : Framebuffer) : (s.setFb f).st = s.st := rfl
@[simp] theorem State.setFb_keys (f : Framebuffer) : (s.setFb f).keys = s.keys := rfl
@[simp] theorem State.setFb_fb (f : Framebuffer) : (s.setFb f).fb = f := rfl
@[simp] theorem State.setFb_mode (f : Framebuffer) : (s.setFb f).mode = s.mode := rfl
@[simp] theorem State.setFb_faultInfo (f : Framebuffer) : (s.setFb f).faultInfo = s.faultInfo := rfl
@[simp] theorem State.setFb_env (f : Framebuffer) : (s.setFb f).env = s.env := rfl

@[simp] theorem State.setMode_mem (m : RunMode) : (s.setMode m).mem = s.mem := rfl
@[simp] theorem State.setMode_v (m : RunMode) : (s.setMode m).v = s.v := rfl
@[simp] theorem State.setMode_i (m : RunMode) : (s.setMode m).i = s.i := rfl
@[simp] theorem State.setMode_pc (m : RunMode) : (s.setMode m).pc = s.pc := rfl
@[simp] theorem State.setMode_stack (m : RunMode) : (s.setMode m).stack = s.stack := rfl
@[simp] theorem State.setMode_sp (m : RunMode) : (s.setMode m).sp = s.sp := rfl
@[simp] theorem State.setMode_dt (m : RunMode) : (s.setMode m).dt = s.dt := rfl
@[simp] theorem State.setMode_st (m : RunMode) : (s.setMode m).st = s.st := rfl
@[simp] theorem State.setMode_keys (m : RunMode) : (s.setMode m).keys = s.keys := rfl
@[simp] theorem State.setMode_fb (m : RunMode) : (s.setMode m).fb = s.fb := rfl
@[simp] theorem State.setMode_mode (m : RunMode) : (s.setMode m).mode = m := rfl
@[simp] theorem State.setMode_faultInfo (m : RunMode) : (s.setMode m).faultInfo = s.faultInfo := rfl
@[simp] theorem State.setMode_env (m : RunMode) : (s.setMode m).env = s.env := rfl

@[simp] theorem State.setStack_mem (c : Vector Word 16) (p : Fin 17) : (s.setStack c p).mem = s.mem := rfl
@[simp] theorem State.setStack_v (c : Vector Word 16) (p : Fin 17) : (s.setStack c p).v = s.v := rfl
@[simp] theorem State.setStack_i (c : Vector Word 16) (p : Fin 17) : (s.setStack c p).i = s.i := rfl
@[simp] theorem State.setStack_pc (c : Vector Word 16) (p : Fin 17) : (s.setStack c p).pc = s.pc := rfl
@[simp] theorem State.setStack_stack (c : Vector Word 16) (p : Fin 17) : (s.setStack c p).stack = c := rfl
@[simp] theorem State.setStack_sp (c : Vector Word 16) (p : Fin 17) : (s.setStack c p).sp = p := rfl
@[simp] theorem State.setStack_dt (c : Vector Word 16) (p : Fin 17) : (s.setStack c p).dt = s.dt := rfl
@[simp] theorem State.setStack_st (c : Vector Word 16) (p : Fin 17) : (s.setStack c p).st = s.st := rfl
@[simp] theorem State.setStack_keys (c : Vector Word 16) (p : Fin 17) : (s.setStack c p).keys = s.keys := rfl
@[simp] theorem State.setStack_fb (c : Vector Word 16) (p : Fin 17) : (s.setStack c p).fb = s.fb := rfl
@[simp] theorem State.setStack_mode (c : Vector Word 16) (p : Fin 17) : (s.setStack c p).mode = s.mode := rfl
@[simp] theorem State.setStack_faultInfo (c : Vector Word 16) (p : Fin 17) : (s.setStack c p).faultInfo = s.faultInfo := rfl
@[simp] theorem State.setStack_env (c : Vector Word 16) (p : Fin 17) : (s.setStack c p).env = s.env := rfl

@[simp] theorem State.setEnv_mem (e : Environment) : (s.setEnv e).mem = s.mem := rfl
@[simp] theorem State.setEnv_v (e : Environment) : (s.setEnv e).v = s.v := rfl
@[simp] theorem State.setEnv_i (e : Environment) : (s.setEnv e).i = s.i := rfl
@[simp] theorem State.setEnv_pc (e : Environment) : (s.setEnv e).pc = s.pc := rfl
@[simp] theorem State.setEnv_stack (e : Environment) : (s.setEnv e).stack = s.stack := rfl
@[simp] theorem State.setEnv_sp (e : Environment) : (s.setEnv e).sp = s.sp := rfl
@[simp] theorem State.setEnv_dt (e : Environment) : (s.setEnv e).dt = s.dt := rfl
@[simp] theorem State.setEnv_st (e : Environment) : (s.setEnv e).st = s.st := rfl
@[simp] theorem State.setEnv_keys (e : Environment) : (s.setEnv e).keys = s.keys := rfl
@[simp] theorem State.setEnv_fb (e : Environment) : (s.setEnv e).fb = s.fb := rfl
@[simp] theorem State.setEnv_mode (e : Environment) : (s.setEnv e).mode = s.mode := rfl
@[simp] theorem State.setEnv_faultInfo (e : Environment) : (s.setEnv e).faultInfo = s.faultInfo := rfl
@[simp] theorem State.setEnv_env (e : Environment) : (s.setEnv e).env = e := rfl

@[simp] theorem State.setKey_mem (k : KeyIdx) (on : Bool) : (s.setKey k on).mem = s.mem := rfl
@[simp] theorem State.setKey_v (k : KeyIdx) (on : Bool) : (s.setKey k on).v = s.v := rfl
@[simp] theorem State.setKey_i (k : KeyIdx) (on : Bool) : (s.setKey k on).i = s.i := rfl
@[simp] theorem State.setKey_pc (k : KeyIdx) (on : Bool) : (s.setKey k on).pc = s.pc := rfl
@[simp] theorem State.setKey_stack (k : KeyIdx) (on : Bool) : (s.setKey k on).stack = s.stack := rfl
@[simp] theorem State.setKey_sp (k : KeyIdx) (on : Bool) : (s.setKey k on).sp = s.sp := rfl
@[simp] theorem State.setKey_dt (k : KeyIdx) (on : Bool) : (s.setKey k on).dt = s.dt := rfl
@[simp] theorem State.setKey_st (k : KeyIdx) (on : Bool) : (s.setKey k on).st = s.st := rfl
@[simp] theorem State.setKey_keys (k : KeyIdx) (on : Bool) : (s.setKey k on).keys = s.keys.set k.val on := rfl
@[simp] theorem State.setKey_fb (k : KeyIdx) (on : Bool) : (s.setKey k on).fb = s.fb := rfl
@[simp] theorem State.setKey_mode (k : KeyIdx) (on : Bool) : (s.setKey k on).mode = s.mode := rfl
@[simp] theorem State.setKey_faultInfo (k : KeyIdx) (on : Bool) : (s.setKey k on).faultInfo = s.faultInfo := rfl
@[simp] theorem State.setKey_env (k : KeyIdx) (on : Bool) : (s.setKey k on).env = s.env := rfl

@[simp] theorem State.raiseFault_mem (k : ErrorKind) (o : Option Word) (a : Option Nat) : (s.raiseFault k o a).mem = s.mem := rfl
@[simp] theorem State.raiseFault_v (k : ErrorKind) (o : Option Word) (a : Option Nat) : (s.raiseFault k o a).v = s.v := rfl
@[simp] theorem State.raiseFault_i (k : ErrorKind) (o : Option Word) (a : Option Nat) : (s.raiseFault k o a).i = s.i := rfl
@[simp] theorem State.raiseFault_pc (k : ErrorKind) (o : Option Word) (a : Option Nat) : (s.raiseFault k o a).pc = s.pc := rfl
@[simp] theorem State.raiseFault_stack (k : ErrorKind) (o : Option Word) (a : Option Nat) : (s.raiseFault k o a).stack = s.stack := rfl
@[simp] theorem State.raiseFault_sp (k : ErrorKind) (o : Option Word) (a : Option Nat) : (s.raiseFault k o a).sp = s.sp := rfl
@[simp] theorem State.raiseFault_dt (k : ErrorKind) (o : Option Word) (a : Option Nat) : (s.raiseFault k o a).dt = s.dt := rfl
@[simp] theorem State.raiseFault_st (k : ErrorKind) (o : Option Word) (a : Option Nat) : (s.raiseFault k o a).st = s.st := rfl
@[simp] theorem State.raiseFault_keys (k : ErrorKind) (o : Option Word) (a : Option Nat) : (s.raiseFault k o a).keys = s.keys := rfl
@[simp] theorem State.raiseFault_fb (k : ErrorKind) (o : Option Word) (a : Option Nat) : (s.raiseFault k o a).fb = s.fb := rfl
@[simp] theorem State.raiseFault_mode (k : ErrorKind) (o : Option Word) (a : Option Nat) : (s.raiseFault k o a).mode = .faulted := rfl
@[simp] theorem State.raiseFault_faultInfo (k : ErrorKind) (o : Option Word) (a : Option Nat) : (s.raiseFault k o a).faultInfo = some { kind := k, pc := s.pc, op := o, addr := a } := rfl
@[simp] theorem State.raiseFault_env (k : ErrorKind) (o : Option Word) (a : Option Nat) : (s.raiseFault k o a).env = s.env := rfl

@[simp] theorem State.advance_mem : (s.advance).mem = s.mem := rfl
@[simp] theorem State.advance_v : (s.advance).v = s.v := rfl
@[simp] theorem State.advance_i : (s.advance).i = s.i := rfl
@[simp] theorem State.advance_pc : (s.advance).pc = s.pc + 2 := rfl
@[simp] theorem State.advance_stack : (s.advance).stack = s.stack := rfl
@[simp] theorem State.advance_sp : (s.advance).sp = s.sp := rfl
@[simp] theorem State.advance_dt : (s.advance).dt = s.dt := rfl
@[simp] theorem State.advance_st : (s.advance).st = s.st := rfl
@[simp] theorem State.advance_keys : (s.advance).keys = s.keys := rfl
@[simp] theorem State.advance_fb : (s.advance).fb = s.fb := rfl
@[simp] theorem State.advance_mode : (s.advance).mode = s.mode := rfl
@[simp] theorem State.advance_faultInfo : (s.advance).faultInfo = s.faultInfo := rfl
@[simp] theorem State.advance_env : (s.advance).env = s.env := rfl

end Sys2Proof.Machine
end

