-- ==== Sys2Proof/Laws/Ops.lean ====
section
/-! SUPPORT. One lemma per shared operation that says everything it does: registers, keys, stack, flags, ranges, the register
block, the sprite. -/

namespace Sys2Proof.Machine

/-! ## Registers and keys -/

/-- A register write is read back at its own register and leaves every other. -/
@[simp] theorem State.readV_writeV (s : State) (x r : RegIdx) (b : Byte) :
    (s.writeV x b).readV r = if r = x then b else s.readV r := by
  simp only [State.readV, State.writeV_v, Vector.getElem_set]
  by_cases h : r = x
  · simp [h]
  · rw [if_neg h, if_neg (fun h' => h (Fin.ext h'.symm))]

/-- The flag first, the result second: the result wins where the destination is VF (42_family_8_alu.md R90). -/
@[simp] theorem State.readV_writeFlagged (s : State) (x r : RegIdx) (flag : Bool) (b : Byte) :
    (s.writeFlagged x flag b).readV r = if r = x then b else if r = RegIdx.vF then flagByte flag else s.readV r := by
  simp [State.writeFlagged]

/-- A key write is read back at its own key and leaves every other. -/
@[simp] theorem State.key_setKey (s : State) (k j : KeyIdx) (on : Bool) :
    (s.setKey k on).key j = if j = k then on else s.key j := by
  simp only [State.key, State.setKey_keys, Vector.getElem_set]
  by_cases h : j = k
  · simp [h]
  · rw [if_neg h, if_neg (fun h' => h (Fin.ext h'.symm))]

/-- A skip moves PC by two where its condition holds and does nothing else. -/
theorem State.skipIf_eq (s : State) (c : Bool) : s.skipIf c = s.setPc (if c then s.pc + 2 else s.pc) := by
  cases c <;> rfl

/-! ## The stack -/

/-- A push succeeds exactly below sixteen entries. -/
theorem State.push_eq (s : State) (w : Word) :
    s.push w = if h : s.sp.val < 16 then some (s.setStack (s.stack.set s.sp.val w) ⟨s.sp.val + 1, by omega⟩) else none := rfl

/-- A pop succeeds exactly on a stack that is not empty. -/
theorem State.pop_eq (s : State) :
    s.pop = if h : 0 < s.sp.val then
        some (s.stack[s.sp.val - 1]'(by omega), s.setStack s.stack ⟨s.sp.val - 1, by omega⟩) else none := rfl

/-! ## Flags -/

/-- The bit a right shift moves out is the parity of the value. -/
theorem flagByte_shiftedOutRight (a : Byte) : (flagByte (shiftedOutRight a)).toNat = a.toNat % 2 := by
  revert a
  decide

/-- The bit a left shift moves out is the value's top bit. -/
theorem flagByte_shiftedOutLeft (a : Byte) : (flagByte (shiftedOutLeft a)).toNat = a.toNat / 128 := by
  revert a
  decide

/-! ## Ranges, keys, digits -/

/-- A range faults exactly where it is not empty and passes the end of memory, at its lowest bad address. -/
theorem rangeFault_eq (base count : Nat) :
    rangeFault base count = if count > 0 ∧ base + (count - 1) ≥ 4096 then some (max base 4096) else none := rfl

/-- Under the policy `fault`, a value below sixteen selects its own key and any other is refused. -/
theorem keyIndex_fault (b : Byte) :
    keyIndex .fault b = if h : b.toNat < 16 then some ⟨b.toNat, h⟩ else none := rfl

/-- The digits are three, each the number R121 gives. -/
theorem bcdDigits_toNat (b : Byte) :
    (bcdDigits b).map BitVec.toNat = [b.toNat / 100, b.toNat / 10 % 10, b.toNat % 10] := by
  have := b.isLt
  simp only [bcdDigits, List.map_cons, List.map_nil, BitVec.toNat_ofNat]
  rw [Nat.mod_eq_of_lt (show b.toNat / 100 < 2 ^ 8 by omega), Nat.mod_eq_of_lt (show b.toNat / 10 % 10 < 2 ^ 8 by omega),
    Nat.mod_eq_of_lt (show b.toNat % 10 < 2 ^ 8 by omega)]

/-- The glyph address is five times the whole byte, which never wraps (R120). -/
theorem glyphAddress_toNat (b : Byte) : (glyphAddress b).toNat = b.toNat * 5 := by
  have := b.isLt
  have h5 : (BitVec.ofNat 16 Config.glyphBytes).toNat = 5 := rfl
  rw [glyphAddress, BitVec.toNat_mul, h5, BitVec.toNat_setWidth_of_le (by omega)]
  omega

/-! ## The register block -/

@[simp] theorem State.length_registersTo (s : State) (x : RegIdx) : (s.registersTo x).length = x.val + 1 := by
  simp [State.registersTo]

/-- The block holds V[0] to V[x], in order. -/
theorem State.getD_registersTo (s : State) (x r : RegIdx) (h : r ≤ x) : (s.registersTo x).getD r.val 0 = s.readV r := by
  have hr : r.val < x.val + 1 := by
    have := Fin.le_def.mp h
    omega
  simp [State.registersTo, State.readV, List.getD_eq_getElem?_getD, hr]

/-- Loading `k` registers one after the other sets those below `k` and leaves the rest. -/
theorem foldl_load (m : Memory) (base k : Nat) (v : Vector Byte 16) (r : Nat) (hr : r < 16) :
    ((List.range k).foldl (fun acc j => acc.setIfInBounds j (m.read (base + j))) v)[r] =
      if r < k then m.read (base + r) else v[r] := by
  induction k with
  | zero => simp
  | succ k ih =>
    rw [List.range_succ, List.foldl_append]
    simp only [List.foldl_cons, List.foldl_nil, Vector.getElem_setIfInBounds, ih]
    by_cases h : k = r
    · simp [h]
    · rw [if_neg h]
      by_cases h' : r < k
      · rw [if_pos h', if_pos (by omega)]
      · rw [if_neg h', if_neg (by omega)]

/-- The block load sets V[0] to V[x] from the bytes at `base` and leaves the registers above (R123). -/
theorem getElem_loadRegisters (m : Memory) (base : Nat) (x r : RegIdx) (v : Vector Byte 16) :
    (loadRegisters m base x v)[r.val] = if r ≤ x then m.read (base + r.val) else v[r.val] := by
  rw [loadRegisters, foldl_load]
  by_cases h : r ≤ x
  · have := Fin.le_def.mp h
    rw [if_pos h, if_pos (by omega)]
  · have : ¬ r.val ≤ x.val := fun h' => h (Fin.le_def.mpr h')
    rw [if_neg h, if_neg (by omega)]

/-! ## The framebuffer -/

@[simp] theorem Framebuffer.pixel_blank (r : Fin 32) (c : Fin 64) : Framebuffer.blank.pixel r c = false := by
  simp [Framebuffer.pixel, Framebuffer.blank]

/-- A toggle inverts its own pixel and leaves every other. -/
theorem Framebuffer.pixel_toggle (f : Framebuffer) (r r' : Fin 32) (c c' : Fin 64) :
    (f.toggle r c).pixel r' c' = (f.pixel r' c' ^^ decide ((r', c') = (r, c))) := by
  unfold Framebuffer.toggle
  unfold Framebuffer.pixel
  by_cases hr : r.val = r'.val
  · obtain rfl := Fin.ext hr
    by_cases hc : c.val = c'.val
    · obtain rfl := Fin.ext hc
      simp
    · have hc' : ¬ c' = c := fun h => hc (by rw [h])
      simp [hc, hc']
  · have hr' : ¬ r' = r := fun h => hr (by rw [h])
    simp [hr, hr']

/-! ## The sprite -/

/-- The pixels the sprite bits that are 1 fall on, in the order they are drawn: the set S of 44_family_D_sprite.md R108. -/
def spriteTargets (m : Memory) (base : Nat) (vx vy : Byte) (n : Nat) : List (Fin 32 × Fin 64) :=
  (List.range n).flatMap fun r =>
    ((List.range 8).filter fun c => spriteBit (m.read (base + r)) c).map fun c => (targetRow vy r, targetCol vx c)

theorem mem_spriteTargets (m : Memory) (base : Nat) (vx vy : Byte) (n : Nat) (row : Fin 32) (col : Fin 64) :
    (row, col) ∈ spriteTargets m base vx vy n ↔
      ∃ r < n, ∃ c < 8, spriteBit (m.read (base + r)) c = true ∧ targetRow vy r = row ∧ targetCol vx c = col := by
  simp only [spriteTargets, List.mem_flatMap, List.mem_range, List.mem_map, List.mem_filter, Prod.mk.injEq, and_assoc]

/-- A loop that toggles under a condition is the loop over the indexes that meet it. -/
theorem foldl_toggle_filter (row : Fin 32) (vx : Byte) (p : Nat → Bool) (cs : List Nat) (cv : Canvas) :
    cs.foldl (fun acc c => if p c then acc.toggle row (targetCol vx c) else acc) cv =
      ((cs.filter p).map fun c => (row, targetCol vx c)).foldl (fun acc q => acc.toggle q.1 q.2) cv := by
  induction cs generalizing cv with
  | nil => rfl
  | cons c rest ih =>
    rw [List.foldl_cons, ih]
    by_cases h : p c = true
    · rw [if_pos h, List.filter_cons_of_pos h, List.map_cons, List.foldl_cons]
    · rw [if_neg h, List.filter_cons_of_neg h]

/-- Drawing a sprite is toggling its target pixels one after the other. -/
theorem Canvas.draw_eq_targets (m : Memory) (base : Nat) (vx vy : Byte) (n : Nat) (cv : Canvas) :
    cv.draw m base vx vy n = (spriteTargets m base vx vy n).foldl (fun acc q => acc.toggle q.1 q.2) cv := by
  rw [spriteTargets, List.foldl_flatMap, Canvas.draw]
  congr 1
  funext acc r
  exact foldl_toggle_filter _ _ _ _ _

/-- No pixel is the target of two bits of one sprite: 8 columns of 64, at most 32 rows of 32 (44_family_D_sprite.md R109). -/
theorem nodup_spriteTargets (m : Memory) (base : Nat) (vx vy : Byte) (n : Nat) (hn : n ≤ 32) :
    (spriteTargets m base vx vy n).Nodup := by
  rw [spriteTargets, List.nodup_flatMap]
  refine ⟨fun r _ => ?_, ?_⟩
  · refine List.Nodup.map_on ?_ (List.nodup_range.filter _)
    intro c hc d hd h
    have h8 := List.mem_range.mp (List.mem_filter.mp hc).1
    have h8' := List.mem_range.mp (List.mem_filter.mp hd).1
    have := Fin.ext_iff.mp (Prod.mk.inj h).2
    simp only [targetCol] at this
    omega
  · refine List.Pairwise.imp_of_mem ?_ (List.pairwise_lt_range (n := n))
    intro r r' hr hr' hlt q hq hq'
    obtain ⟨c, _, rfl⟩ := List.mem_map.mp hq
    obtain ⟨c', _, h⟩ := List.mem_map.mp hq'
    have := Fin.ext_iff.mp (Prod.mk.inj h).1
    have h1 := List.mem_range.mp hr
    have h2 := List.mem_range.mp hr'
    simp only [targetRow] at this
    omega

/-- Toggling pairwise distinct pixels inverts exactly those, and meets a collision exactly where one of them was on. -/
theorem Canvas.toggleAll_spec (ps : List (Fin 32 × Fin 64)) (hps : ps.Nodup) (cv : Canvas) :
    (∀ r c, (ps.foldl (fun acc q => acc.toggle q.1 q.2) cv).fb.pixel r c = (cv.fb.pixel r c ^^ decide ((r, c) ∈ ps))) ∧
    ((ps.foldl (fun acc q => acc.toggle q.1 q.2) cv).hit = true ↔
      cv.hit = true ∨ ∃ q ∈ ps, cv.fb.pixel q.1 q.2 = true) := by
  induction ps generalizing cv with
  | nil => simp
  | cons p rest ih =>
    obtain ⟨hp, hrest⟩ := List.nodup_cons.mp hps
    obtain ⟨ihp, ihh⟩ := ih hrest (cv.toggle p.1 p.2)
    refine ⟨fun r c => ?_, ?_⟩
    · rw [List.foldl_cons, ihp, Canvas.toggle, Framebuffer.pixel_toggle]
      by_cases h : (r, c) = p
      · subst h
        simp [hp]
      · have h' : ¬ (r, c) = (p.1, p.2) := h
        simp only [h', decide_false, Bool.xor_false, List.mem_cons, false_or]
    · rw [List.foldl_cons, ihh]
      have same : ∀ q ∈ rest, (cv.toggle p.1 p.2).fb.pixel q.1 q.2 = cv.fb.pixel q.1 q.2 := by
        intro q hq
        have hne : ¬ (q.1, q.2) = (p.1, p.2) := fun h => hp (by
          have : q = p := h
          exact this ▸ hq)
        simp only [Canvas.toggle, Framebuffer.pixel_toggle, hne, decide_false, Bool.xor_false]
      have hit : (cv.toggle p.1 p.2).hit = true ↔ cv.hit = true ∨ cv.fb.pixel p.1 p.2 = true := by
        simp only [Canvas.toggle, Bool.or_eq_true]
      rw [hit, or_assoc]
      refine or_congr_right ⟨?_, ?_⟩
      · rintro (h | ⟨q, hq, h⟩)
        · exact ⟨p, List.mem_cons_self, h⟩
        · exact ⟨q, List.mem_cons_of_mem _ hq, (same q hq) ▸ h⟩
      · rintro ⟨q, hq, h⟩
        rcases List.mem_cons.mp hq with rfl | hq
        · exact .inl h
        · exact .inr ⟨q, hq, (same q hq).symm ▸ h⟩

end Sys2Proof.Machine
end

