-- ==== Sys2Proof/Laws/Exec.lean ====
section
/-! SUPPORT. One inversion lemma for each of the eight instructions that can fault: its own effect, or the fault taken, and when
(60_exceptions.md R140). -/

namespace Sys2Proof.Machine

theorem execRet_cases (s : State) :
    (∃ h : 0 < s.sp.val, execRet s =
      .next ((s.advance.setStack s.stack ⟨s.sp.val - 1, by omega⟩).setPc (s.stack[s.sp.val - 1]'(by omega)))) ∨
    (s.sp.val = 0 ∧ execRet s = .next (s.raiseFault .stackUnderflow (some (encode .ret)) none)) := by
  by_cases h : 0 < s.sp.val
  · left
    refine ⟨h, ?_⟩
    have hp : s.advance.pop = some (s.stack[s.sp.val - 1]'(by omega), s.advance.setStack s.stack ⟨s.sp.val - 1, by omega⟩) :=
      dif_pos h
    rw [execRet, hp]
  · right
    have hp : s.advance.pop = none := dif_neg h
    exact ⟨by omega, by rw [execRet, hp]⟩

theorem execCall_cases (nnn : Word) (s : State) :
    (∃ h : s.sp.val < 16, execCall nnn s =
      .next ((s.advance.setStack (s.stack.set s.sp.val (s.pc + 2)) ⟨s.sp.val + 1, by omega⟩).setPc nnn)) ∨
    (s.sp.val = 16 ∧ execCall nnn s = .next (s.raiseFault .stackOverflow (some (encode (.call nnn))) none)) := by
  by_cases h : s.sp.val < 16
  · left
    refine ⟨h, ?_⟩
    have hp : s.advance.push s.advance.pc =
        some (s.advance.setStack (s.stack.set s.sp.val (s.pc + 2)) ⟨s.sp.val + 1, by omega⟩) := dif_pos h
    rw [execCall, hp]
  · right
    have hp : s.advance.push s.advance.pc = none := dif_neg h
    exact ⟨by omega, by rw [execCall, hp]⟩

/-- A range that is in order, and one that is not. -/
theorem rangeFault_cases (base count : Nat) :
    ((count = 0 ∨ base + (count - 1) < 4096) ∧ rangeFault base count = none) ∨
    ((count > 0 ∧ base + (count - 1) ≥ 4096) ∧ rangeFault base count = some (max base 4096)) := by
  rw [rangeFault_eq]
  by_cases h : count > 0 ∧ base + (count - 1) ≥ 4096
  · exact .inr ⟨h, if_pos h⟩
  · exact .inl ⟨by omega, if_neg h⟩

theorem execDrw_cases (x y : RegIdx) (n : Nat) (s : State) :
    ((n = 0 ∨ s.i.toNat + (n - 1) < 4096) ∧ ∃ drawn,
      drawn = Canvas.draw s.mem s.i.toNat (s.readV x) (s.readV y) n { fb := s.fb, hit := false } ∧
      execDrw x y n s = .next ((s.advance.setFb drawn.fb).writeV RegIdx.vF (flagByte drawn.hit))) ∨
    ((n > 0 ∧ s.i.toNat + (n - 1) ≥ 4096) ∧ execDrw x y n s =
      .next (s.raiseFault .addressOutOfRange (some (encode (.drw x y n))) (some (max s.i.toNat 4096)))) := by
  rcases rangeFault_cases s.i.toNat n with ⟨h, e⟩ | ⟨h, e⟩
  · exact .inl ⟨h, _, rfl, by simp only [execDrw, e]⟩
  · exact .inr ⟨h, by simp only [execDrw, e]⟩

theorem execLdB_cases (x : RegIdx) (s : State) :
    (s.i.toNat + 2 < 4096 ∧
      execLdB x s = .next (s.advance.setMem (s.mem.writeBytes s.i.toNat (bcdDigits (s.readV x))))) ∨
    (s.i.toNat + 2 ≥ 4096 ∧ execLdB x s =
      .next (s.raiseFault .addressOutOfRange (some (encode (.ldB x))) (some (max s.i.toNat 4096)))) := by
  rcases rangeFault_cases s.i.toNat 3 with ⟨h, e⟩ | ⟨h, e⟩
  · exact .inl ⟨by omega, by simp only [execLdB, e]⟩
  · exact .inr ⟨by omega, by simp only [execLdB, e]⟩

theorem execStRegs_cases (x : RegIdx) (s : State) :
    (s.i.toNat + x.val < 4096 ∧
      execStRegs x s = .next (s.advance.setMem (s.mem.writeBytes s.i.toNat (s.registersTo x)))) ∨
    (s.i.toNat + x.val ≥ 4096 ∧ execStRegs x s =
      .next (s.raiseFault .addressOutOfRange (some (encode (.stRegs x))) (some (max s.i.toNat 4096)))) := by
  rcases rangeFault_cases s.i.toNat (x.val + 1) with ⟨h, e⟩ | ⟨h, e⟩
  · exact .inl ⟨by omega, by simp only [execStRegs, e]⟩
  · exact .inr ⟨by omega, by simp only [execStRegs, e]⟩

theorem execLdRegs_cases (x : RegIdx) (s : State) :
    (s.i.toNat + x.val < 4096 ∧
      execLdRegs x s = .next (s.advance.setV (loadRegisters s.mem s.i.toNat x s.v))) ∨
    (s.i.toNat + x.val ≥ 4096 ∧ execLdRegs x s =
      .next (s.raiseFault .addressOutOfRange (some (encode (.ldRegs x))) (some (max s.i.toNat 4096)))) := by
  rcases rangeFault_cases s.i.toNat (x.val + 1) with ⟨h, e⟩ | ⟨h, e⟩
  · exact .inl ⟨by omega, by simp only [execLdRegs, e]⟩
  · exact .inr ⟨by omega, by simp only [execLdRegs, e]⟩

/-- The key a register value selects under the spec's policy, and when it selects none. -/
theorem keyIndex_cases (b : Byte) :
    (∃ h : b.toNat < 16, keyIndex Config.keyIndexPolicy b = some ⟨b.toNat, h⟩) ∨
    (b.toNat > 15 ∧ keyIndex Config.keyIndexPolicy b = none) := by
  by_cases h : b.toNat < 16
  · exact .inl ⟨h, dif_pos h⟩
  · exact .inr ⟨by omega, dif_neg h⟩

theorem execSkp_cases (x : RegIdx) (s : State) :
    (∃ h : (s.readV x).toNat < 16, execSkp x s = .next (s.advance.skipIf (s.key ⟨(s.readV x).toNat, h⟩))) ∨
    ((s.readV x).toNat > 15 ∧ execSkp x s =
      .next (s.raiseFault .keyIndexOutOfRange (some (encode (.skp x))) (some (s.readV x).toNat))) := by
  rcases keyIndex_cases (s.readV x) with ⟨h, e⟩ | ⟨h, e⟩
  · exact .inl ⟨h, by simp only [execSkp, e]⟩
  · exact .inr ⟨h, by simp only [execSkp, e]⟩

theorem execSknp_cases (x : RegIdx) (s : State) :
    (∃ h : (s.readV x).toNat < 16, execSknp x s = .next (s.advance.skipIf (!s.key ⟨(s.readV x).toNat, h⟩))) ∨
    ((s.readV x).toNat > 15 ∧ execSknp x s =
      .next (s.raiseFault .keyIndexOutOfRange (some (encode (.sknp x))) (some (s.readV x).toNat))) := by
  rcases keyIndex_cases (s.readV x) with ⟨h, e⟩ | ⟨h, e⟩
  · exact .inl ⟨h, by simp only [execSknp, e]⟩
  · exact .inr ⟨h, by simp only [execSknp, e]⟩

end Sys2Proof.Machine
end

