-- ==== Sys2Proof/Laws/PerInstr.lean ====
section
/-! SUPPORT. The family TableWord: the word the encoder gives an instruction is, as a number, its row's match plus its fields at
their positions (30_encoding.md R65, R70). One lemma per instruction. -/

namespace Sys2Proof.Laws.TableWord

/-- The row's match plus the fields at their positions, as a number (30_encoding.md R65). -/
def tableNumber : Instr → Nat
  | .cls => 0x00E0
  | .ret => 0x00EE
  | .jp nnn => 0x1000 + nnn.toNat
  | .call nnn => 0x2000 + nnn.toNat
  | .seI x nn => 0x3000 + 256 * x.val + nn.toNat
  | .sneI x nn => 0x4000 + 256 * x.val + nn.toNat
  | .seR x y => 0x5000 + 256 * x.val + 16 * y.val
  | .ldI x nn => 0x6000 + 256 * x.val + nn.toNat
  | .addI x nn => 0x7000 + 256 * x.val + nn.toNat
  | .ldR x y => 0x8000 + 256 * x.val + 16 * y.val
  | .or x y => 0x8001 + 256 * x.val + 16 * y.val
  | .and x y => 0x8002 + 256 * x.val + 16 * y.val
  | .xor x y => 0x8003 + 256 * x.val + 16 * y.val
  | .addR x y => 0x8004 + 256 * x.val + 16 * y.val
  | .sub x y => 0x8005 + 256 * x.val + 16 * y.val
  | .shr x y => 0x8006 + 256 * x.val + 16 * y.val
  | .subn x y => 0x8007 + 256 * x.val + 16 * y.val
  | .shl x y => 0x800E + 256 * x.val + 16 * y.val
  | .sneR x y => 0x9000 + 256 * x.val + 16 * y.val
  | .ldIdx nnn => 0xA000 + nnn.toNat
  | .jpV0 nnn => 0xB000 + nnn.toNat
  | .rnd x nn => 0xC000 + 256 * x.val + nn.toNat
  | .drw x y n => 0xD000 + 256 * x.val + 16 * y.val + n
  | .skp x => 0xE09E + 256 * x.val
  | .sknp x => 0xE0A1 + 256 * x.val
  | .ldVxDt x => 0xF007 + 256 * x.val
  | .ldVxK x => 0xF00A + 256 * x.val
  | .ldDtVx x => 0xF015 + 256 * x.val
  | .ldStVx x => 0xF018 + 256 * x.val
  | .addIdx x => 0xF01E + 256 * x.val
  | .ldF x => 0xF029 + 256 * x.val
  | .ldB x => 0xF033 + 256 * x.val
  | .stRegs x => 0xF055 + 256 * x.val
  | .ldRegs x => 0xF065 + 256 * x.val

/-- The encoder's word of a well-formed instruction is its table number. -/
def Statement (i : Instr) : Prop := i.wellFormed = true → (encode i).toNat = tableNumber i

theorem cls : Statement .cls := fun _ => rfl

theorem ret : Statement .ret := fun _ => rfl

theorem jp (nnn : Word) : Statement (.jp nnn) := fun h => address_toNat 1 nnn (of_decide_eq_true h)

theorem call (nnn : Word) : Statement (.call nnn) := fun h => address_toNat 2 nnn (of_decide_eq_true h)

theorem seI (x : RegIdx) (nn : Byte) : Statement (.seI x nn) := fun _ => regByte_toNat 3 x nn

theorem sneI (x : RegIdx) (nn : Byte) : Statement (.sneI x nn) := fun _ => regByte_toNat 4 x nn

theorem seR (x y : RegIdx) : Statement (.seR x y) := fun _ => by
  revert x y
  decide

theorem ldI (x : RegIdx) (nn : Byte) : Statement (.ldI x nn) := fun _ => regByte_toNat 6 x nn

theorem addI (x : RegIdx) (nn : Byte) : Statement (.addI x nn) := fun _ => regByte_toNat 7 x nn

theorem ldR (x y : RegIdx) : Statement (.ldR x y) := fun _ => by
  revert x y
  decide

theorem or (x y : RegIdx) : Statement (.or x y) := fun _ => by
  revert x y
  decide

theorem and (x y : RegIdx) : Statement (.and x y) := fun _ => by
  revert x y
  decide

theorem xor (x y : RegIdx) : Statement (.xor x y) := fun _ => by
  revert x y
  decide

theorem addR (x y : RegIdx) : Statement (.addR x y) := fun _ => by
  revert x y
  decide

theorem sub (x y : RegIdx) : Statement (.sub x y) := fun _ => by
  revert x y
  decide

theorem shr (x y : RegIdx) : Statement (.shr x y) := fun _ => by
  revert x y
  decide

theorem subn (x y : RegIdx) : Statement (.subn x y) := fun _ => by
  revert x y
  decide

theorem shl (x y : RegIdx) : Statement (.shl x y) := fun _ => by
  revert x y
  decide

theorem sneR (x y : RegIdx) : Statement (.sneR x y) := fun _ => by
  revert x y
  decide

theorem ldIdx (nnn : Word) : Statement (.ldIdx nnn) := fun h => address_toNat 10 nnn (of_decide_eq_true h)

theorem jpV0 (nnn : Word) : Statement (.jpV0 nnn) := fun h => address_toNat 11 nnn (of_decide_eq_true h)

theorem rnd (x : RegIdx) (nn : Byte) : Statement (.rnd x nn) := fun _ => regByte_toNat 12 x nn

theorem drw (x y : RegIdx) (n : Nat) : Statement (.drw x y n) := fun h => by
  have hn : n < 16 := of_decide_eq_true h
  have hxy : (0xD000#16 ||| placeX x ||| placeY y).toNat = 0xD000 + 256 * x.val + 16 * y.val := by
    clear h
    revert x y
    decide
  have e : (0xD000#16 ||| placeX x ||| placeY y ||| placeN n).toNat = 0xD000 + 256 * x.val + 16 * y.val + n := by
    rw [BitVec.toNat_or, hxy, placeN, BitVec.toNat_ofNat, Nat.mod_eq_of_lt (by omega),
      show 0xD000 + 256 * x.val + 16 * y.val = 2 ^ 4 * (0xD00 + 16 * x.val + y.val) by omega,
      ← Nat.two_pow_add_eq_or_of_lt (by omega)]
  exact e

theorem skp (x : RegIdx) : Statement (.skp x) := fun _ => by
  revert x
  decide

theorem sknp (x : RegIdx) : Statement (.sknp x) := fun _ => by
  revert x
  decide

theorem ldVxDt (x : RegIdx) : Statement (.ldVxDt x) := fun _ => by
  revert x
  decide

theorem ldVxK (x : RegIdx) : Statement (.ldVxK x) := fun _ => by
  revert x
  decide

theorem ldDtVx (x : RegIdx) : Statement (.ldDtVx x) := fun _ => by
  revert x
  decide

theorem ldStVx (x : RegIdx) : Statement (.ldStVx x) := fun _ => by
  revert x
  decide

theorem addIdx (x : RegIdx) : Statement (.addIdx x) := fun _ => by
  revert x
  decide

theorem ldF (x : RegIdx) : Statement (.ldF x) := fun _ => by
  revert x
  decide

theorem ldB (x : RegIdx) : Statement (.ldB x) := fun _ => by
  revert x
  decide

theorem stRegs (x : RegIdx) : Statement (.stRegs x) := fun _ => by
  revert x
  decide

theorem ldRegs (x : RegIdx) : Statement (.ldRegs x) := fun _ => by
  revert x
  decide

end Sys2Proof.Laws.TableWord
end

