-- ==== Sys2Proof/Tests/Slice0.lean ====
section
/-! SUPPORT. The model's own tests: well-formedness, decoding of words written out from the spec's patterns, one Step each from
the vectors of 95_test_vectors.md, and for every statement with hypotheses a state and operands that meet them. -/

namespace Sys2Proof.Tests

open Sys2Proof Sys2Proof.Machine

/-! ## Well-formedness: each check refuses an ill-formed term, and takes the largest good one -/

theorem test_wf_jp : (Instr.jp 0x1000).wellFormed = false ∧ (Instr.jp 0x0FFF).wellFormed = true := by decide

theorem test_wf_call : (Instr.call 0x1000).wellFormed = false ∧ (Instr.call 0x0FFF).wellFormed = true := by decide

theorem test_wf_ldIdx : (Instr.ldIdx 0x1000).wellFormed = false ∧ (Instr.ldIdx 0x0FFF).wellFormed = true := by decide

theorem test_wf_jpV0 : (Instr.jpV0 0x1000).wellFormed = false ∧ (Instr.jpV0 0x0FFF).wellFormed = true := by decide

theorem test_wf_drw : (Instr.drw 0 0 16).wellFormed = false ∧ (Instr.drw 0 0 15).wellFormed = true := by decide

/-! ## Decoding: every constructor by a word written out nibble by nibble from its pattern (30_encoding.md R65) -/

theorem test_decode_control :
    decode 0x00E0#16 = .ok .cls ∧ decode 0x00EE#16 = .ok .ret ∧ decode 0x1234#16 = .ok (.jp 0x234) ∧
    decode 0x2345#16 = .ok (.call 0x345) := by decide

theorem test_decode_skip_imm :
    decode 0x3A42#16 = .ok (.seI 0xA 0x42) ∧ decode 0x4B43#16 = .ok (.sneI 0xB 0x43) ∧
    decode 0x5AB0#16 = .ok (.seR 0xA 0xB) ∧ decode 0x6A7F#16 = .ok (.ldI 0xA 0x7F) ∧
    decode 0x7102#16 = .ok (.addI 1 0x02) := by decide

theorem test_decode_alu_moves :
    decode 0x8AB0#16 = .ok (.ldR 0xA 0xB) ∧ decode 0x8AB1#16 = .ok (.or 0xA 0xB) ∧ decode 0x8AB2#16 = .ok (.and 0xA 0xB) ∧
    decode 0x8AB3#16 = .ok (.xor 0xA 0xB) ∧ decode 0x8AB4#16 = .ok (.addR 0xA 0xB) := by decide

theorem test_decode_alu_rest :
    decode 0x8AB5#16 = .ok (.sub 0xA 0xB) ∧ decode 0x8AB6#16 = .ok (.shr 0xA 0xB) ∧ decode 0x8AB7#16 = .ok (.subn 0xA 0xB) ∧
    decode 0x8ABE#16 = .ok (.shl 0xA 0xB) := by decide

theorem test_decode_misc :
    decode 0x9AB0#16 = .ok (.sneR 0xA 0xB) ∧ decode 0xAFFF#16 = .ok (.ldIdx 0xFFF) ∧ decode 0xB300#16 = .ok (.jpV0 0x300) ∧
    decode 0xC10F#16 = .ok (.rnd 1 0x0F) ∧ decode 0xD12F#16 = .ok (.drw 1 2 15) ∧ decode 0xD120#16 = .ok (.drw 1 2 0) := by
  decide

theorem test_decode_keys : decode 0xE09E#16 = .ok (.skp 0) ∧ decode 0xEFA1#16 = .ok (.sknp 15) := by decide

theorem test_decode_family_F :
    decode 0xF307#16 = .ok (.ldVxDt 3) ∧ decode 0xF00A#16 = .ok (.ldVxK 0) ∧ decode 0xF315#16 = .ok (.ldDtVx 3) ∧
    decode 0xF318#16 = .ok (.ldStVx 3) ∧ decode 0xF11E#16 = .ok (.addIdx 1) := by decide

theorem test_decode_family_F_memory :
    decode 0xF129#16 = .ok (.ldF 1) ∧ decode 0xF133#16 = .ok (.ldB 1) ∧ decode 0xF255#16 = .ok (.stRegs 2) ∧
    decode 0xFF65#16 = .ok (.ldRegs 15) := by decide

/-- The unknown words of 95_test_vectors.md section 3, families 0 to 5. -/
theorem test_decode_unknown_low :
    decode 0x00E1#16 = .error (.unknownOpcode 0x00E1) ∧ decode 0x0000#16 = .error (.unknownOpcode 0x0000) ∧
    decode 0x0FFF#16 = .error (.unknownOpcode 0x0FFF) ∧ decode 0x5AB1#16 = .error (.unknownOpcode 0x5AB1) := ⟨rfl, rfl, rfl, rfl⟩

/-- The unknown words of 95_test_vectors.md section 3, families 8, E and F. -/
theorem test_decode_unknown_high :
    decode 0x8AB8#16 = .error (.unknownOpcode 0x8AB8) ∧ decode 0x8ABF#16 = .error (.unknownOpcode 0x8ABF) ∧
    decode 0xE0A2#16 = .error (.unknownOpcode 0xE0A2) ∧ decode 0xF075#16 = .error (.unknownOpcode 0xF075) := ⟨rfl, rfl, rfl, rfl⟩

/-- The byte at the lower address is the high half; one byte alone is no instruction (30_encoding.md R61, 20_memory.md R45). -/
theorem test_decodeBytes :
    decodeBytes [0x12, 0x34, 0x56] = .ok (.jp 0x234, [0x56]) ∧ decodeBytes [0x12] = .error (.truncated [0x12]) := by decide

theorem test_decodeTableWord :
    decodeTableWord 16 0xD12F = some (.drw 1 2 15) ∧ decodeTableWord 16 0x5AB1 = none ∧ encodeBytes (.drw 1 2 15) = [0xD1, 0x2F] :=
  by decide

/-! ## One Step each -/

/-- Whether an outcome is a next state of which `p` holds. -/
def ends (o : Host.Outcome State Fault Refusal) (p : State → Bool) : Bool :=
  match o with
  | .next t => p t
  | .fault _ => false
  | .refused _ => false

/-- The state after reset with some registers and I set, and bytes stored at 0x300. -/
def given (regs : List (RegIdx × Byte)) (i : Word) (bytes : List Byte) : State :=
  ((regs.foldl (fun s p => s.writeV p.1 p.2) State.reset).setI i).setMem (Memory.writeBytes [] 0x300 bytes)

/-- That state with `n` stack entries in use, all zero. -/
def withSp (n : Fin 17) : State := State.reset.setStack State.reset.stack n

/-- The state with these pixels, given as (column, row), toggled. -/
def lit (ps : List (Fin 64 × Fin 32)) (s : State) : State := s.setFb (ps.foldl (fun f p => f.toggle p.2 p.1) s.fb)

/-- TV-00E0-1. -/
theorem test_cls :
    ends (exec .cls (lit [(0, 0), (63, 31)] State.reset)) (fun t => decide (t.fb = Framebuffer.blank) && t.pc == 0x202) = true := by
  decide

/-- TV-00EE-1. -/
theorem test_ret :
    ends (exec .ret (State.reset.setStack (State.reset.stack.set 0 0x0456) 1)) (fun t => t.pc == 0x456 && t.sp == 0) = true := by
  decide

/-- TV-00EE-2. -/
theorem test_ret_underflow :
    ends (exec .ret State.reset) (fun t => t.faultInfo == some ⟨.stackUnderflow, 0x200, some 0x00EE, none⟩ && t.pc == 0x200) =
      true := by decide

/-- TV-1nnn-1. -/
theorem test_jp : ends (exec (.jp 0xABC) State.reset) (fun t => t.pc == 0xABC) = true := by decide

/-- TV-2nnn-1. -/
theorem test_call :
    ends (exec (.call 0x345) State.reset) (fun t => t.stackAt 0 == 0x202 && t.sp == 1 && t.pc == 0x345) = true := by decide

/-- TV-2nnn-2. -/
theorem test_call_overflow :
    ends (exec (.call 0x345) (withSp 16)) (fun t => t.faultInfo == some ⟨.stackOverflow, 0x200, some 0x2345, none⟩ && t.sp == 16) =
      true := by decide

/-- TV-3-1, TV-3-2. -/
theorem test_seI :
    ends (exec (.seI 3 0x42) (given [(3, 0x42)] 0 [])) (fun t => t.pc == 0x204) = true ∧
    ends (exec (.seI 3 0x43) (given [(3, 0x42)] 0 [])) (fun t => t.pc == 0x202) = true := by decide

/-- TV-4-1, TV-4-2. -/
theorem test_sneI :
    ends (exec (.sneI 3 0x42) (given [(3, 0x42)] 0 [])) (fun t => t.pc == 0x202) = true ∧
    ends (exec (.sneI 3 0x43) (given [(3, 0x42)] 0 [])) (fun t => t.pc == 0x204) = true := by decide

/-- TV-5-1, TV-5-2. -/
theorem test_seR :
    ends (exec (.seR 1 2) (given [(1, 7), (2, 7)] 0 [])) (fun t => t.pc == 0x204) = true ∧
    ends (exec (.seR 1 2) (given [(1, 7), (2, 8)] 0 [])) (fun t => t.pc == 0x202) = true := by decide

/-- TV-6-2. -/
theorem test_ldI : ends (exec (.ldI 15 0x55) State.reset) (fun t => t.readV 15 == 0x55) = true := by decide

/-- TV-7-1. -/
theorem test_addI :
    ends (exec (.addI 1 0x02) (given [(1, 0xFF), (15, 9)] 0 [])) (fun t => t.readV 1 == 1 && t.readV 15 == 9) = true := by decide

/-- TV-80-1. -/
theorem test_ldR :
    ends (exec (.ldR 1 2) (given [(1, 3), (2, 9)] 0 [])) (fun t => t.readV 1 == 9 && t.readV 2 == 9) = true := by decide

/-- TV-81-1. -/
theorem test_or :
    ends (exec (.or 1 2) (given [(1, 0xF0), (2, 0x0F), (15, 7)] 0 [])) (fun t => t.readV 1 == 0xFF && t.readV 15 == 7) = true := by
  decide

/-- TV-82-1. -/
theorem test_and :
    ends (exec (.and 1 2) (given [(1, 0xF3), (2, 0x3F), (15, 7)] 0 [])) (fun t => t.readV 1 == 0x33 && t.readV 15 == 7) = true := by
  decide

/-- TV-83-1. -/
theorem test_xor :
    ends (exec (.xor 1 2) (given [(1, 0xF3), (2, 0x3F), (15, 7)] 0 [])) (fun t => t.readV 1 == 0xCC && t.readV 15 == 7) = true := by
  decide

/-- TV-84-4. -/
theorem test_addR_into_VF :
    ends (exec (.addR 15 1) (given [(15, 0x01), (1, 0xFF)] 0 [])) (fun t => t.readV 15 == 0x00) = true := by decide

/-- TV-84-5. -/
theorem test_addR_reads_old_VF :
    ends (exec (.addR 1 15) (given [(1, 0xFF), (15, 0x02)] 0 [])) (fun t => t.readV 1 == 1 && t.readV 15 == 1) = true := by decide

/-- TV-85-2. -/
theorem test_sub_equal :
    ends (exec (.sub 1 2) (given [(1, 5), (2, 5), (15, 1)] 0 [])) (fun t => t.readV 1 == 0 && t.readV 15 == 0) = true := by decide

/-- TV-85-6. -/
theorem test_sub_reads_old_VF :
    ends (exec (.sub 1 15) (given [(1, 3), (15, 5)] 0 [])) (fun t => t.readV 1 == 0xFE && t.readV 15 == 0) = true := by decide

/-- TV-86-2. -/
theorem test_shr_ignores_vy :
    ends (exec (.shr 1 2) (given [(1, 4), (2, 0xFF), (15, 1)] 0 [])) (fun t => t.readV 1 == 2 && t.readV 15 == 0) = true := by decide

/-- TV-86-4. -/
theorem test_shr_VF : ends (exec (.shr 15 0) (given [(15, 7)] 0 [])) (fun t => t.readV 15 == 3) = true := by decide

/-- TV-87-2. -/
theorem test_subn :
    ends (exec (.subn 1 2) (given [(1, 1), (2, 3)] 0 [])) (fun t => t.readV 1 == 2 && t.readV 15 == 1) = true := by decide

/-- TV-87-4. -/
theorem test_subn_VF : ends (exec (.subn 15 1) (given [(15, 2), (1, 9)] 0 [])) (fun t => t.readV 15 == 7) = true := by decide

/-- TV-8E-1. -/
theorem test_shl :
    ends (exec (.shl 1 0) (given [(1, 0x81)] 0 [])) (fun t => t.readV 1 == 2 && t.readV 15 == 1) = true := by decide

/-- TV-8E-4. -/
theorem test_shl_VF : ends (exec (.shl 15 0) (given [(15, 0xC0)] 0 [])) (fun t => t.readV 15 == 0x80) = true := by decide

/-- TV-9-1, TV-9-2. -/
theorem test_sneR :
    ends (exec (.sneR 1 2) (given [(1, 1), (2, 2)] 0 [])) (fun t => t.pc == 0x204) = true ∧
    ends (exec (.sneR 1 2) (given [(1, 2), (2, 2)] 0 [])) (fun t => t.pc == 0x202) = true := by decide

/-- TV-A-1. -/
theorem test_ldIdx : ends (exec (.ldIdx 0xFFF) State.reset) (fun t => t.i == 0xFFF) = true := by decide

/-- TV-B-2, its first Step. -/
theorem test_jpV0 : ends (exec (.jpV0 0xFFF) (given [(0, 0xFF)] 0 [])) (fun t => t.pc == 0x10FE) = true := by decide

/-- TV-C-1. -/
theorem test_rnd :
    ends (exec (.rnd 1 0x0F) (State.reset.setEnv { State.reset.env with randFeed := [0xAB] }))
      (fun t => t.readV 1 == 0x0B && t.env.randFeed == []) = true := by decide

/-- TV-D-3: pixels (62,31), (63,31), (62,0), (5,0). -/
theorem test_drw_wraps :
    ends (exec (.drw 0 1 2) (given [(0, 0x7E), (1, 0x3F)] 0x300 [0xC0, 0x81]))
      (fun t => decide (t.fb = (lit [(62, 31), (63, 31), (62, 0), (5, 0)] State.reset).fb) && t.readV 15 == 0) = true := by decide

/-- TV-D-7. -/
theorem test_drw_collides :
    ends (exec (.drw 0 1 1) (lit [(1, 0)] (given [] 0x300 [0xC0])))
      (fun t => decide (t.fb = (lit [(0, 0)] State.reset).fb) && t.readV 15 == 1) = true := by decide

/-- TV-E-1 and TV-E-5. -/
theorem test_skp :
    ends (exec (.skp 1) ((given [(1, 5)] 0 []).setKey 5 true)) (fun t => t.pc == 0x204) = true ∧
    ends (exec (.skp 1) (given [(1, 0x10)] 0 []))
      (fun t => t.faultInfo == some ⟨.keyIndexOutOfRange, 0x200, some 0xE19E, some 16⟩) = true := by decide

/-- TV-E-4 and TV-E-6. -/
theorem test_sknp :
    ends (exec (.sknp 1) (given [(1, 5)] 0 [])) (fun t => t.pc == 0x204) = true ∧
    ends (exec (.sknp 1) (given [(1, 0xFF)] 0 []))
      (fun t => t.faultInfo == some ⟨.keyIndexOutOfRange, 0x200, some 0xE1A1, some 255⟩) = true := by decide

/-- The other value of KEY_INDEX_POLICY (TV-E-5 and TV-E-6 under mask). -/
theorem test_key_mask : keyIndex .mask 0x10 = some 0 ∧ keyIndex .mask 0xFF = some 15 := by decide

/-- TV-F07-1. -/
theorem test_ldVxDt : ends (exec (.ldVxDt 3) (State.reset.setDt 0x2A)) (fun t => t.readV 3 == 0x2A && t.dt == 0x2A) = true := by decide

/-- TV-F0A-1, its first event. -/
theorem test_ldVxK :
    ends (exec (.ldVxK 3) State.reset) (fun t => t.mode == .awaitingKey 3 && t.pc == 0x202 && t.readV 3 == 0) = true := by decide

/-- TV-F15-1. -/
theorem test_ldDtVx : ends (exec (.ldDtVx 3) (given [(3, 0x3C)] 0 [])) (fun t => t.dt == 0x3C && t.st == 0) = true := by decide

/-- TV-F18-1. -/
theorem test_ldStVx : ends (exec (.ldStVx 3) (given [(3, 5)] 0 [])) (fun t => t.st == 5 && soundActive t) = true := by decide

/-- TV-F1E-2. -/
theorem test_addIdx : ends (exec (.addIdx 1) (given [(1, 2)] 0xFFFF [])) (fun t => t.i == 1) = true := by decide

/-- TV-F29-3. -/
theorem test_ldF : ends (exec (.ldF 1) (given [(1, 0xFF)] 0 [])) (fun t => t.i == 0x04FB) = true := by decide

/-- TV-F33-3. -/
theorem test_ldB :
    ends (exec (.ldB 1) (given [(1, 123)] 0x0FFD [])) (fun t => t.mem == [(0xFFD, 1), (0xFFE, 2), (0xFFF, 3)]) = true := by decide

/-- TV-F33-4. -/
theorem test_ldB_range :
    ends (exec (.ldB 1) (given [(1, 123)] 0x0FFE []))
      (fun t => t.faultInfo == some ⟨.addressOutOfRange, 0x200, some 0xF133, some 0x1000⟩ && t.mem == []) = true := by decide

/-- TV-F55-1. -/
theorem test_stRegs :
    ends (exec (.stRegs 2) (given [(0, 1), (1, 2), (2, 3), (3, 4)] 0x300 []))
      (fun t => t.mem == [(0x300, 1), (0x301, 2), (0x302, 3)] && t.i == 0x300) = true := by decide

/-- TV-F55-3. -/
theorem test_stRegs_range :
    ends (exec (.stRegs 15) (given [(0, 0xA0)] 0x0FF1 []))
      (fun t => t.faultInfo == some ⟨.addressOutOfRange, 0x200, some 0xFF55, some 0x1000⟩ && t.mem == []) = true := by decide

/-- TV-F65-1. -/
theorem test_ldRegs :
    ends (exec (.ldRegs 2) (given [(3, 0x33)] 0x300 [9, 8, 7, 6]))
      (fun t => t.readV 0 == 9 && t.readV 2 == 7 && t.readV 3 == 0x33 && t.i == 0x300) = true := by decide

/-- TV-F65-4, the default font. -/
theorem test_ldRegs_font :
    ends (exec (.ldRegs 4) State.reset) (fun t => (t.registersTo 4) == [0xF0, 0x90, 0x90, 0x90, 0xF0]) = true := by decide

/-! ## Events -/

/-- TV-TICK-1, its first Tick. -/
theorem test_tick :
    ((tick ((State.reset.setDt 2).setSt 1)).dt, (tick ((State.reset.setDt 2).setSt 1)).st,
      (tick ((State.reset.setDt 2).setSt 1)).env.outputs, soundActive (tick ((State.reset.setDt 2).setSt 1))) =
      (1, 0, [.soundPulse true], false) := by decide

/-- S11: a timer at 0 stays at 0. -/
theorem test_tick_saturates : (tick State.reset).dt = 0 ∧ (tick State.reset).env.outputs = [.soundPulse false] := by decide

/-- TV-F0A-1, its events 4 and 6. -/
theorem test_keyDown :
    (keyDown 7 ((State.reset.setMode (.awaitingKey 3)).setKey 7 true)).mode = .awaitingKey 3 ∧
    (keyDown 7 (State.reset.setMode (.awaitingKey 3))).mode = .running ∧
    (keyDown 7 (State.reset.setMode (.awaitingKey 3))).readV 3 = 7 := by decide

/-- TV-RESET-3: from reset the first Step meets the word 0x0000. -/
theorem test_reset_step :
    ends (step State.reset) (fun t => diagRecords t == [(0x0000, 0x200)] && t.pc == 0x202) = true := by decide

/-- P5: its image of two words, loaded by Reset at 0x200; the word fetched first is 0x0123. -/
theorem test_reset_loads :
    bootMemory defaultFont [0x01, 0x23, 0x00, 0xEE] = [(0x200, 0x01), (0x201, 0x23), (0x203, 0xEE)] ∧
    Memory.readWord [(0x200, 0x01), (0x201, 0x23), (0x203, 0xEE)] 0x200 = .ok 0x0123 := by
  rw [bootMemory, writeBytes_defaultFont]
  decide

/-- The glyph "7" of the default table stands at 7 * 5 (10_state.md R33). -/
theorem test_default_font : (defaultFont.toList.drop 35).take 5 = [0xF0, 0x10, 0x20, 0x40, 0x40] := by decide

/-- Another FONT is what Reset puts into memory: FONT[a] = 0xC3 at every a, the last glyph byte and the byte after it read
(10_state.md R33, R35). -/
theorem test_reset_other_font :
    (bootMemory (Vector.replicate 80 0xC3) []).read 0x04F = 0xC3 ∧ (bootMemory (Vector.replicate 80 0xC3) []).read 0x050 = 0 := by
  simp [read_bootMemory]

/-- The word placed after reset is the instruction the next step runs. -/
theorem test_withFetchWord : ends (step (State.reset.withFetchWord 16 0x6A7F)) (fun t => t.readV 0xA == 0x7F) = true := by decide

/-! ## Witnesses: the hypotheses of the statements are met -/

theorem witness_DecodeInvertsEncode : (Instr.drw 15 15 15).wellFormed = true ∧ (Instr.jp 0xFFF).wellFormed = true := by decide

theorem witness_EncodeInvertsDecode : decode 0xDFFF#16 = .ok (.drw 15 15 15) := by decide

theorem witness_DecodeFindsTheOnlyFittingRow :
    (∃ r ∈ opcodeMap, r.fits 0xFF65 = true) ∧ ∀ r ∈ opcodeMap, r.fits 0x0000 = false := by decide

/-- The last address an instruction can be fetched from, with nothing scheduled and with a Step scheduled. -/
def lastWord : State := (State.reset.setPc 0xFFE).withFetchWord 16 0x6A7F

theorem witness_StepRunsTheDecodedInstruction :
    lastWord.mode = .running ∧ lastWord.pc.toNat + 1 = 4095 ∧ lastWord.env.schedule = [] ∧
    decode (BitVec.ofNat 16 ((lastWord.mem.read lastWord.pc.toNat).toNat * 256 + (lastWord.mem.read (lastWord.pc.toNat + 1)).toNat)) =
      .ok (.ldI 0xA 0x7F) ∧
    (lastWord.setEnv { lastWord.env with schedule := [.step] }).env.schedule = .step :: [] := by decide

/-- A state with a schedule. -/
def scheduled (es : List Event) (s : State) : State := s.setEnv { s.env with schedule := es }

theorem witness_StepTakesTheNextEvent :
    State.reset.env.schedule = [] ∧ (scheduled [.step] (State.reset.setMode (.awaitingKey 0))).env.schedule = .step :: [] ∧
    (scheduled [.tick] State.reset).env.schedule = .tick :: [] ∧
    (scheduled [.keyDown 15] State.reset).env.schedule = .keyDown 15 :: [] ∧
    (scheduled [.keyUp 0] State.reset).env.schedule = .keyUp 0 :: [] ∧
    (scheduled [.reset [0x00]] State.reset).env.schedule = .reset [0x00] :: [] := by decide

theorem witness_CycleIsNoOpUnlessRunning :
    (State.reset.setMode (.awaitingKey 0)).mode ≠ .running ∧ (State.reset.setMode .faulted).mode ≠ .running ∧
    (State.reset.setMode .faulted).env.schedule = [] := by decide

theorem witness_UnknownWordReportsAndGoesOn :
    State.reset.mode = .running ∧ State.reset.fetch = .ok 0x0000 ∧ decode 0x0000#16 = .error (.unknownOpcode 0x0000) := by decide

theorem witness_FetchIsBigEndianAndBounded :
    (State.reset.setPc 0xFFE).pc.toNat = 0xFFE ∧ (State.reset.setPc 0xFFF).pc.toNat = 0xFFF ∧
    (State.reset.setPc 0x1000).pc.toNat = 0x1000 ∧ (State.reset.setPc 0xFFF).mode = .running := by decide

theorem witness_WithFetchWordRunsThatWord : decode (BitVec.ofNat 16 0xFF65) = .ok (.ldRegs 15) := by decide

theorem witness_JumpsSetOnlyPc :
    ((0x0FFF : Word).toNat < 4096 ∧ (0x0FFF : Word).toNat = 0xFFF) ∧ (0x0FFE : Word).toNat < 0xFFF ∧
    (0x0F00 : Word).toNat + ((given [(0, 0xFF)] 0 []).readV 0).toNat ≥ 0xFFF := by decide

theorem witness_SkipsCompareAndMoveOnlyPc :
    ((given [(3, 0x42)] 0 []).setPc 0xFFE).pc = 0xFFE ∧ ((given [(3, 0x42)] 0 []).setPc 0xFFE).readV 3 = 0x42 := by decide

theorem witness_CallPushesTheReturnAddress :
    (0x0FFF : Word).toNat < 4096 ∧ (withSp 15).sp.val < 16 ∧ (withSp 16).sp.val = 16 := by decide

theorem witness_ReturnPopsPc : 0 < (withSp 1).sp.val ∧ (withSp 0).sp.val = 0 := by decide

theorem witness_ReturnUndoesCall :
    (withSp 15).sp.val < 16 ∧ ∃ t, exec (.call 0xFFF) (withSp 15) = .next t ∧ Same .stack t (t.setDt 7) :=
  ⟨by decide, _, rfl, rfl, fun _ => rfl⟩

theorem witness_KeySkipsReadOneKey :
    ((given [(1, 15)] 0 []).readV 1).toNat < 16 ∧ ((given [(1, 16)] 0 []).readV 1).toNat > 15 := by decide

theorem witness_ByteMovesAndAddImmediate : (15 : RegIdx) ≠ 0 := by decide

theorem witness_LogicWritesOnlyVx : (7 : Nat) < 8 ∧ (15 : RegIdx) ≠ 0 := by decide

theorem witness_AddWritesSumAndCarry : (0 : RegIdx) ≠ 15 ∧ (1 : RegIdx) ≠ 0 ∧ (1 : RegIdx) ≠ 15 := by decide

theorem witness_SubtractsWriteDifferenceAndStrictGreater : (14 : RegIdx) ≠ 15 ∧ (0 : RegIdx) ≠ 14 ∧ (0 : RegIdx) ≠ 15 := by decide

theorem witness_ShiftsIgnoreVyAndKeepTheBitOut : (14 : RegIdx) ≠ 15 ∧ (0 : RegIdx) ≠ 14 ∧ (0 : RegIdx) ≠ 15 := by decide

theorem witness_IndexWritesChangeOnlyI : (0x0FFF : Word).toNat < 4096 := by decide

theorem witness_TimerMovesChangeOnlyTheirDestination : (0 : RegIdx) ≠ 15 := by decide

theorem witness_RandomIsOneDrawUnderTheMask :
    (State.reset.setEnv { State.reset.env with randFeed := [0xAB] }).env.randFeed = 0xAB :: [] ∧ State.reset.env.randFeed = [] ∧
    (0 : RegIdx) ≠ 15 := by decide

theorem witness_BcdStoresThreeDigits : (given [(1, 255)] 0x0FFD []).i.toNat + 2 = 4095 := by decide

theorem witness_StoreRegistersWritesTheBlock :
    (given [] 0x0FF0 []).i.toNat + (15 : RegIdx).val = 4095 ∧ (15 : RegIdx) ≤ 15 ∧ (0 : Nat) < (given [] 0x0FF0 []).i.toNat := by
  decide

theorem witness_LoadRegistersReadsTheBlock : (given [] 0x0FF0 []).i.toNat + (15 : RegIdx).val = 4095 := by decide

theorem witness_LoadAfterStoreRestoresRegisters :
    (given [(0, 9)] 0x0FFF []).i.toNat + (0 : RegIdx).val = 4095 ∧
    ∃ t, exec (.stRegs 0) (given [(0, 9)] 0x0FFF []) = .next t ∧ Same .memory t (t.writeV 0 1) ∧ (t.writeV 0 1).i = t.i :=
  ⟨by decide, _, rfl, fun _ => rfl, rfl⟩

theorem witness_RangeFaultsStoreNothing :
    (15 > 0 ∧ (given [] 0x0FF2 []).i.toNat + (15 - 1) = 4096) ∧ (given [] 0x0FFE []).i.toNat + 2 = 4096 ∧
    (given [] 0x0FF1 []).i.toNat + (15 : RegIdx).val = 4096 ∧ (given [] 0x1000 []).i.toNat + (0 : RegIdx).val = 4096 := by decide

/-- The next instruction stands in the last word of memory; a block from below reaches its first byte, one ends below it, one begins
at its second byte. -/
theorem witness_StoredBytesAreFetchedNext :
    ((given [] 0xFFA []).setPc 0xFFC).pc.toNat + 3 = 4095 ∧ (given [] 0xFFA []).i.toNat + (4 : RegIdx).val < 4096 ∧
    (given [] 0xFFA []).i.toNat + (4 : RegIdx).val = 0xFFC + 2 ∧ (given [] 0xFFA []).i.toNat + (3 : RegIdx).val < 0xFFC + 2 ∧
    0xFFC + 2 < (given [] 0xFFF []).i.toNat ∧ (given [] 0xFFF []).i.toNat + (0 : RegIdx).val = 0xFFC + 3 ∧
    0x200 + 3 < (given [] 0x204 []).i.toNat ∧ (given [] 0xFFD []).i.toNat + 2 = 0xFFC + 3 ∧
    (given [] 0xFFD []).i.toNat + 1 = 0xFFC + 2 := by decide

theorem witness_MemoryReadsTheLatestWrite : (4095 : Nat) < 4096 ∧ (4096 : Nat) ≤ 4096 := by decide

theorem witness_CanonicalMemoriesReadingAlikeAreEqual :
    Memory.wf [(0x000, 0x01), (0xFFF, 0xFF)] = true ∧
    Memory.wf (Memory.write (Memory.write [] 0xFFF 0xFF) 0x000 0x01) = true ∧
    ∀ a, Memory.read [(0x000, 0x01), (0xFFF, 0xFF)] a = (Memory.write (Memory.write [] 0xFFF 0xFF) 0x000 0x01).read a :=
  ⟨by decide, by decide, fun _ => rfl⟩

/-- A sprite of 15 rows that ends at the last byte of memory, its last byte set. -/
def lastSprite : State := (State.reset.setI 0xFF1).setMem [(0xFFF, 0x80)]

theorem witness_DrawTogglesExactlyTheSprite :
    (15 < 16 ∧ lastSprite.i.toNat + (15 - 1) = 4095) ∧ (0 < 16 ∧ (0 : Nat) = 0) ∧
    spriteCovers (lit [(0, 14)] lastSprite) 0 0 15 14 0 ∧ (lit [(0, 14)] lastSprite).pixel 14 0 = true ∧
    ¬ spriteCovers lastSprite 0 0 0 14 0 ∧ (∀ r c, spriteCovers lastSprite 0 0 15 r c → lastSprite.pixel r c = false) ∧
    (0 : RegIdx) ≠ 15 :=
  ⟨by decide, by decide, ⟨14, by decide, 0, by decide, by decide, by decide, by decide⟩, by decide,
    fun h => absurd h.choose_spec.1 (Nat.not_lt_zero _), fun r c _ => Framebuffer.pixel_blank r c, by decide⟩

theorem witness_DrawingTwiceRestoresTheScreen :
    (15 < 16 ∧ lastSprite.i.toNat + (15 - 1) = 4095) ∧
    (∃ t, exec (.drw 0 1 15) lastSprite = .next t ∧ t.readV 0 = lastSprite.readV 0 ∧ t.readV 1 = lastSprite.readV 1) ∧ (∀ r c, lastSprite.pixel r c = false) ∧
    ∃ r c, spriteCovers lastSprite (lastSprite.readV 0) (lastSprite.readV 1) 15 r c :=
  ⟨by decide, ⟨_, rfl, by decide, by decide⟩, Framebuffer.pixel_blank,
    14, 0, 14, by decide, 0, by decide, by decide, by decide, by decide⟩

theorem witness_KeyWaitEndsOnAPressEdge :
    ∃ t, exec (.ldVxK 3) (State.reset.setKey 7 true) = .next t ∧ t.key 7 = true ∧ t.key 0 = false ∧ (0 : RegIdx) ≠ 3 :=
  ⟨_, rfl, by decide, by decide, by decide⟩

theorem witness_KeyEventsSetAndClearOneKey :
    State.reset.mode ≠ .faulted ∧ State.reset.mode = .running ∧
    (((State.reset.setMode (.awaitingKey 3)).setKey 15 true).mode ≠ .faulted ∧
      ((State.reset.setMode (.awaitingKey 3)).setKey 15 true).key 15 = true) ∧ (0 : KeyIdx) ≠ 15 := by decide

theorem witness_TickCountsBothTimersDown : (State.reset.setSt 1).mode ≠ .faulted ∧ (State.reset.setMode (.awaitingKey 0)).mode ≠ .faulted :=
  by decide

theorem witness_TicksReachZeroAndStay : (State.reset.setDt 255).mode ≠ .faulted := by decide

/-- A fault at the fetch, and one of the instruction fetched. -/
theorem witness_FatalFaultsArePrecise :
    (∃ t, (State.reset.setPc 0xFFF).mode = .running ∧ cycle (State.reset.setPc 0xFFF) = .next t ∧ t.mode = .faulted) ∧
    ∃ t, (State.reset.withFetchWord 16 0x00EE).mode = .running ∧ cycle (State.reset.withFetchWord 16 0x00EE) = .next t ∧
      t.mode = .faulted :=
  ⟨⟨_, rfl, rfl, rfl⟩, ⟨_, rfl, rfl, rfl⟩⟩

theorem witness_FaultedIsTerminal :
    (scheduled [.step, .tick, .keyDown 2] (State.reset.setMode .faulted)).mode = .faulted ∧
    ∀ rom, Event.reset rom ∉ (scheduled [.step, .tick, .keyDown 2] (State.reset.setMode .faulted)).env.schedule :=
  ⟨rfl, by simp [scheduled]⟩

theorem witness_OnlyEightInstructionsCanFault :
    (∃ t, exec (.jp 0xFFF) State.reset = .next t) ∧ canFault (.jp 0xFFF) = false ∧ canFault (.ldVxK 3) = false :=
  ⟨⟨_, rfl⟩, rfl, rfl⟩

theorem witness_ResetLoadsTheImage : (List.replicate 3584 (0xAA : Byte)).length ≤ 3584 := Nat.le_of_eq List.length_replicate

theorem witness_OversizedImageIsRejected : 3584 < (List.replicate 3585 (0xAA : Byte)).length :=
  Nat.lt_of_lt_of_eq (Nat.lt_succ_self 3584) List.length_replicate.symm

theorem witness_StepsKeepMemoryCanonical :
    MemoryCanonical ((given [(0, 9)] 0x300 [1, 2]).withFetchWord 16 0xF055) ∧
    ∃ t, step ((given [(0, 9)] 0x300 [1, 2]).withFetchWord 16 0xF055) = .next t :=
  ⟨show Memory.wf _ = true by decide, _, rfl⟩

/-- The return address at its highest in use. -/
def deepest : State := (State.reset.setStack (State.reset.stack.set 0 0x1000) 1).setPc 0x10FE

theorem witness_StepsKeepControlInRange : ControlInRange deepest ∧ ∃ t, step deepest = .next t :=
  ⟨⟨by decide, by decide⟩, _, rfl⟩

theorem witness_StepsKeepTheFaultRecordFitting :
    FaultRecordFits (State.reset.raiseFault .keyIndexOutOfRange (some 0xE19E) (some 16)) ∧
    ∃ t, step (State.reset.raiseFault .keyIndexOutOfRange (some 0xE19E) (some 16)) = .next t :=
  ⟨⟨by decide, fun r h => by cases h; exact ⟨rfl, rfl, 16, rfl, by decide, by decide⟩⟩, _, rfl⟩

theorem witness_OnlyAssignedRegistersChange :
    (∃ t, exec (.addR 1 2) State.reset = .next t) ∧ mayWrite (.addR 1 2) 14 = false ∧ mayWrite (.ldRegs 14) 15 = false :=
  ⟨⟨_, rfl⟩, rfl, rfl⟩

theorem witness_OnlyTheNamedInstructionsWriteEachPart : ∃ t, exec (.drw 0 1 15) lastSprite = .next t := ⟨_, rfl⟩

theorem witness_HiddenStateIsNeverSeen :
    LookAlike State.reset ((State.reset.setSt 5).setStack (State.reset.stack.set 0 0x0456) 0) ∧
    (∃ t, cycle State.reset = .next t) ∧ ∃ t, cycle ((State.reset.setSt 5).setStack (State.reset.stack.set 0 0x0456) 0) = .next t :=
  ⟨⟨rfl, rfl, rfl, rfl, rfl, fun _ h => absurd h (Nat.not_lt_zero _), rfl, rfl, rfl, rfl, rfl, rfl, rfl⟩, ⟨_, rfl⟩, ⟨_, rfl⟩⟩

/-- A Reset event, the one that reads FONT. -/
theorem witness_StepsKeepTheFontParameter : ∃ t, step (scheduled [.reset [0x12]] State.reset) = .next t := ⟨_, rfl⟩

/-- 1FFE at 0xFFE, the highest address a core can be halted at. -/
def idle : State := (State.reset.setPc 0xFFE).withFetchWord 16 0x1FFE

theorem witness_HaltedIsAFixedPoint : Halted idle := ⟨rfl, by decide, by decide⟩

theorem witness_HaltedDriverPeriodOnlyTicks :
    Halted (scheduled (driverPeriod 2 ++ [.tick]) idle) ∧
    (scheduled (driverPeriod 2 ++ [.tick]) idle).env.schedule = driverPeriod 2 ++ [.tick] :=
  ⟨⟨rfl, by decide, by decide⟩, rfl⟩

end Sys2Proof.Tests
end

section
/-! SUPPORT. The decoder answers by the row that fits, and the words of formats W and A (30_encoding.md R62, R64). -/

namespace Sys2Proof

/-- Two rows that disagree in a bit both masks fix do not fit one word. -/
theorem Row.fits_false_of_conflict {r r' : Row} {op : Word} (hf : r'.fits op = true)
    (hc : (r.bits ^^^ r'.bits) &&& (r.mask &&& r'.mask) ≠ 0) : r.fits op = false := by
  by_contra hfr
  have hr : op &&& r.mask = r.bits := eq_of_beq (Bool.of_not_eq_false hfr)
  have hr' : op &&& r'.mask = r'.bits := eq_of_beq hf
  apply hc
  rw [← hr, ← hr']
  ext i
  simp only [BitVec.getElem_and, BitVec.getElem_xor]
  cases r.mask[i] <;> cases r'.mask[i] <;> simp

/-- The row that fits is the one decoded by: no row before it fits too (30_encoding.md R64). -/
theorem decode_of_fits {r : Row} {op : Word} (hr : r ∈ opcodeMap) (hf : r.fits op = true) :
    decode op = .ok (r.build op) := by
  obtain ⟨before, after, hmap⟩ := List.append_of_mem hr
  have hconflict : ∀ a ∈ before, ∀ b ∈ r :: after, (a.bits ^^^ b.bits) &&& (a.mask &&& b.mask) ≠ 0 :=
    (List.pairwise_append.mp (hmap ▸ opcodeMap_conflicts)).2.2
  have hbefore : ∀ a ∈ before, a.fits op = false := fun a ha =>
    Row.fits_false_of_conflict hf (hconflict a ha r List.mem_cons_self)
  have hfind : opcodeMap.find? (fun row => row.fits op) = some r :=
    List.find?_eq_some_iff_append.mpr ⟨hf, before, after, hmap, fun a ha => by rw [hbefore a ha, Bool.not_false]⟩
  rw [decode, hfind]

theorem fieldNNN_eq_of_toNat_mod (op nnn : Word) (hop : op.toNat % 4096 = nnn.toNat) : fieldNNN op = nnn :=
  BitVec.eq_of_toNat_eq (by rw [fieldNNN_toNat, hop])

open Sys2Proof.Machine in
/-- The word of a row of format A is its class plus nnn, where the encoder gives that number (30_encoding.md R62, R70). -/
theorem encodedAs_address {bits nnn : Word} {f : Word → Instr} (hrow : Row.address bits f ∈ opcodeMap)
    (hbits : bits.toNat % 4096 = 0) (hnnn : nnn.toNat < 4096)
    (henc : (encode (f nnn)).toNat = bits.toNat + nnn.toNat) : EncodedAs (bits.toNat + nnn.toNat) (f nnn) := by
  have hlt := bits.isLt
  have hop : (BitVec.ofNat 16 (bits.toNat + nnn.toNat)).toNat = bits.toNat + nnn.toNat :=
    Nat.mod_eq_of_lt (by omega)
  have hfits : (Row.address bits f).fits (BitVec.ofNat 16 (bits.toNat + nnn.toNat)) = true := by
    rw [Row.fits_address, hop, decide_eq_true_eq]
    omega
  have hfield := fieldNNN_eq_of_toNat_mod (BitVec.ofNat 16 (bits.toNat + nnn.toNat)) nnn (by omega)
  exact ⟨(decode_of_fits hrow hfits).trans (congrArg (fun w => Except.ok (f w)) hfield), henc⟩

end Sys2Proof
end

section
/-! SUPPORT. Frames: what an update of one part leaves unchanged, and how frames compose; where the next fetch fails. -/

namespace Sys2Proof.Machine

theorem Same.trans {p : Part} {s t u : State} (hst : Same p s t) (htu : Same p t u) : Same p s u := by
  cases p with
  | stack => exact ⟨htu.1.trans hst.1, fun k => (htu.2 k).trans (hst.2 k)⟩
  | memory | registers | keys => exact fun a => (htu a).trans (hst a)
  | screen => exact fun r c => (htu r c).trans (hst r c)
  | index | pc | delay | sound | mode | fault | environment => exact Eq.trans htu hst

/-- Two updates one after the other leave unchanged what both leave unchanged. -/
theorem SameExcept.trans {ps qs : List Part} {s t u : State} (hst : SameExcept ps s t) (htu : SameExcept qs t u) :
    SameExcept (qs ++ ps) s u := fun p hp =>
  (hst p fun h => hp (List.mem_append_right qs h)).trans (htu p fun h => hp (List.mem_append_left ps h))

theorem sameExcept_setPc (s : State) (w : Word) : SameExcept [.pc] s (s.setPc w) := fun p hp => by
  cases p with
  | pc => exact absurd (List.mem_singleton_self _) hp
  | stack => exact ⟨rfl, fun _ => rfl⟩
  | memory | registers | keys => exact fun _ => rfl
  | screen => exact fun _ _ => rfl
  | index | delay | sound | mode | fault | environment => rfl

theorem sameExcept_advance (s : State) : SameExcept [.pc] s s.advance := sameExcept_setPc s _

theorem sameExcept_setFb (s : State) (f : Framebuffer) : SameExcept [.screen] s (s.setFb f) := fun p hp => by
  cases p with
  | screen => exact absurd (List.mem_singleton_self _) hp
  | stack => exact ⟨rfl, fun _ => rfl⟩
  | memory | registers | keys => exact fun _ => rfl
  | index | pc | delay | sound | mode | fault | environment => rfl

/-- The fetch reads the word at PC, or offends with the first address beyond memory (30_encoding.md R60, 20_memory.md R43). -/
theorem State.fetch_eq (s : State) :
    s.fetch = if s.pc.toNat + 1 < 4096 then .ok (opcodeOf (s.mem.read s.pc.toNat) (s.mem.read (s.pc.toNat + 1)))
      else .error (max s.pc.toNat 4096) := Memory.readWord_eq s.mem s.pc.toNat

theorem State.fetch_ok_of_lt {s : State} (h : s.pc.toNat < 0xFFF) : ∃ op, s.fetch = .ok op :=
  ⟨_, by rw [State.fetch_eq, if_pos (by omega)]⟩

theorem State.fetch_error_of_ge {s : State} (h : s.pc.toNat ≥ 0xFFF) : s.fetch = .error (max s.pc.toNat 0x1000) := by
  rw [State.fetch_eq, if_neg (by omega)]

end Sys2Proof.Machine
end

section
/-! The obligations of families 0 to 2: clear and jump (40_family_0-2_control.md R80, R82; 43_family_9-C_misc.md R102). -/

namespace Sys2Proof.Machine

theorem exec_cls (s : State) : exec .cls s = .next (s.advance.setFb Framebuffer.blank) := rfl

theorem exec_jp (nnn : Word) (s : State) : exec (.jp nnn) s = .next (s.advance.setPc nnn) := rfl

theorem exec_jpV0 (nnn : Word) (s : State) :
    exec (.jpV0 nnn) s = .next (s.advance.setPc (nnn + (s.readV 0).zext)) := rfl

theorem encodedAs_cls : EncodedAs 0x00E0 .cls := ⟨rfl, rfl⟩

theorem encodedAs_jp (nnn : Word) (h : nnn.toNat < 4096) : EncodedAs (0x1000 + nnn.toNat) (.jp nnn) :=
  encodedAs_address (bits := 0x1000) (List.mem_of_getElem? (i := 2) rfl) rfl h
    (Laws.TableWord.jp nnn (decide_eq_true h))

theorem encodedAs_jpV0 (nnn : Word) (h : nnn.toNat < 4096) : EncodedAs (0xB000 + nnn.toNat) (.jpV0 nnn) :=
  encodedAs_address (bits := 0xB000) (List.mem_of_getElem? (i := 20) rfl) rfl h
    (Laws.TableWord.jpV0 nnn (decide_eq_true h))

/-- A jump sets PC over the advanced one, so no trace of the advance is left. -/
theorem sameExcept_jump (s : State) (w : Word) : SameExcept [.pc] s (s.advance.setPc w) := sameExcept_setPc s w

/-- The sum of a 12-bit address and a byte does not wrap at 16 bits (43_family_9-C_misc.md R102). -/
theorem toNat_address_add_byte (nnn : Word) (b : Byte) (h : nnn.toNat < 4096) :
    (nnn + b.zext).toNat = nnn.toNat + b.toNat := by
  have hb := b.isLt
  rw [BitVec.toNat_add, BitVec.toNat_setWidth_of_le (by omega), Nat.mod_eq_of_lt (by omega)]

/-- Settles O12: the PC advance and the blank framebuffer are the only two updates. -/
theorem clearScreenTurnsAllPixelsOff : Obligations.ClearScreenTurnsAllPixelsOff := by
  refine ⟨encodedAs_cls, fun s => ⟨_, exec_cls s, ?_, ?_, ?_⟩⟩
  · exact Framebuffer.pixel_blank
  · rw [State.setFb_pc, State.advance_pc]
  · exact (sameExcept_advance s).trans (sameExcept_setFb _ _)

/-- Settles O13: PC is the one part a jump sets, and the fetch after it depends on where PC stands against 0xFFF. -/
theorem jumpsSetOnlyPc : Obligations.JumpsSetOnlyPc := by
  refine fun nnn hnnn => ⟨encodedAs_jp nnn hnnn, encodedAs_jpV0 nnn hnnn, fun s => ⟨?_, ?_⟩⟩
  · refine ⟨_, exec_jp nnn s, rfl, sameExcept_jump s nnn, fun hlast => ?_, fun h => State.fetch_ok_of_lt h⟩
    rw [State.fetch_error_of_ge (by rw [State.setPc_pc, hlast]), State.setPc_pc, hlast]
    rfl
  · have hpc := toNat_address_add_byte nnn (s.readV 0) hnnn
    refine ⟨_, exec_jpV0 nnn s, hpc, sameExcept_jump s _, fun hbeyond => ⟨_, State.fetch_error_of_ge ?_⟩⟩
    rwa [State.setPc_pc, hpc]

end Sys2Proof.Machine
end

section
/-! SUPPORT. The words of formats XI and XYF (30_encoding.md R62). -/

namespace Sys2Proof

theorem fieldX_eq_of_toNat_div (op : Word) (x : RegIdx) (hop : op.toNat / 256 % 16 = x.val) : fieldX op = x :=
  Fin.ext (by rw [fieldX_val, hop])

theorem fieldY_eq_of_toNat_div (op : Word) (y : RegIdx) (hop : op.toNat / 16 % 16 = y.val) : fieldY op = y :=
  Fin.ext (by rw [fieldY_val, hop])

theorem fieldNN_eq_of_toNat_mod (op : Word) (nn : Byte) (hop : op.toNat % 256 = nn.toNat) : fieldNN op = nn :=
  BitVec.eq_of_toNat_eq (by rw [fieldNN_toNat, hop])

open Sys2Proof.Machine in
/-- The word of a row of format XI is its class plus x and nn, where the encoder gives that number (30_encoding.md R62, R70). -/
theorem encodedAs_regByte {bits : Word} {x : RegIdx} {nn : Byte} {f : RegIdx → Byte → Instr}
    (hrow : Row.regByte bits f ∈ opcodeMap) (hbits : bits.toNat % 4096 = 0)
    (henc : (encode (f x nn)).toNat = bits.toNat + 256 * x.val + nn.toNat) :
    EncodedAs (bits.toNat + 256 * x.val + nn.toNat) (f x nn) := by
  refine ⟨?_, henc⟩
  generalize hw : bits.toNat + 256 * x.val + nn.toNat = w
  have hop : (BitVec.ofNat 16 w).toNat = w := Nat.mod_eq_of_lt (by omega)
  have hfits : (Row.regByte bits f).fits (BitVec.ofNat 16 w) = true := by
    rw [Row.fits_regByte, hop, decide_eq_true_eq]
    omega
  have hx := fieldX_eq_of_toNat_div (BitVec.ofNat 16 w) x (by omega)
  have hnn := fieldNN_eq_of_toNat_mod (BitVec.ofNat 16 w) nn (by omega)
  exact (decode_of_fits hrow hfits).trans (congrArg₂ (fun a b => Except.ok (f a b)) hx hnn)

open Sys2Proof.Machine in
/-- The word of a row of format XYF is its class and function nibble plus x and y, where the encoder gives that number
(30_encoding.md R62, R70). -/
theorem encodedAs_regReg {bits : Word} {x y : RegIdx} {f : RegIdx → RegIdx → Instr}
    (hrow : Row.regReg bits f ∈ opcodeMap) (hbits : bits.toNat % 4096 < 16)
    (henc : (encode (f x y)).toNat = bits.toNat + 256 * x.val + 16 * y.val) :
    EncodedAs (bits.toNat + 256 * x.val + 16 * y.val) (f x y) := by
  refine ⟨?_, henc⟩
  generalize hw : bits.toNat + 256 * x.val + 16 * y.val = w
  have hop : (BitVec.ofNat 16 w).toNat = w := Nat.mod_eq_of_lt (by omega)
  have hfits : (Row.regReg bits f).fits (BitVec.ofNat 16 w) = true := by
    rw [Row.fits_regReg, hop, decide_eq_true_eq]
    omega
  have hx := fieldX_eq_of_toNat_div (BitVec.ofNat 16 w) x (by omega)
  have hy := fieldY_eq_of_toNat_div (BitVec.ofNat 16 w) y (by omega)
  exact (decode_of_fits hrow hfits).trans (congrArg₂ (fun a b => Except.ok (f a b)) hx hy)

end Sys2Proof
end

section
/-! SUPPORT. What a skip and a write of one register do to the state before the Step. -/

namespace Sys2Proof.Machine

/-- The skip's 2 is added to the advanced PC, so PC moves by 4 or by 2 from pc0 (41_family_3-7_skip_imm.md, head). -/
theorem State.advance_skipIf (s : State) (c : Bool) :
    s.advance.skipIf c = s.setPc (if c then s.pc + 4 else s.pc + 2) := by
  cases c with
  | false => rfl
  | true => exact congrArg s.setPc (BitVec.add_assoc s.pc 2 2)

theorem sameExcept_writeV (s : State) (x : RegIdx) (b : Byte) : SameExcept [.registers] s (s.writeV x b) := fun p hp => by
  cases p with
  | registers => exact absurd (List.mem_singleton_self _) hp
  | stack => exact ⟨rfl, fun _ => rfl⟩
  | memory | keys => exact fun _ => rfl
  | screen => exact fun _ _ => rfl
  | index | pc | delay | sound | mode | fault | environment => rfl

@[simp] theorem State.readV_advance (s : State) (r : RegIdx) : s.advance.readV r = s.readV r := rfl

theorem State.readV_writeV_same (s : State) (x : RegIdx) (b : Byte) : (s.writeV x b).readV x = b := by
  rw [State.readV_writeV, if_pos rfl]

theorem State.readV_writeV_of_ne (s : State) {x r : RegIdx} (b : Byte) (h : r ≠ x) :
    (s.writeV x b).readV r = s.readV r := by
  rw [State.readV_writeV, if_neg h]

/-- An instruction that only writes V[x]: the other registers are kept, PC advances and every other part is kept
(10_state.md R21). -/
theorem advance_writeV_frame (s : State) (x : RegIdx) (b : Byte) :
    (∀ r, r ≠ x → (s.advance.writeV x b).readV r = s.readV r) ∧ (s.advance.writeV x b).pc = s.pc + 2 ∧
    SameExcept [.registers, .pc] s (s.advance.writeV x b) := by
  refine ⟨fun r h => ?_, ?_, ?_⟩
  · rw [State.readV_writeV_of_ne _ b h, State.readV_advance]
  · rw [State.writeV_pc, State.advance_pc]
  · exact (sameExcept_advance s).trans (sameExcept_writeV _ x b)

end Sys2Proof.Machine
end

section
/-! The obligations of families 3 to 7, with 8xy0 and 9xy0: the register skips (41_family_3-7_skip_imm.md R85 to R87,
43_family_9-C_misc.md R100), and the moves and the immediate addition (R88, R89, 42_family_8_alu.md R91). -/

namespace Sys2Proof.Machine

theorem encodedAs_seI (x : RegIdx) (nn : Byte) : EncodedAs (0x3000 + 256 * x.val + nn.toNat) (.seI x nn) :=
  encodedAs_regByte (bits := 0x3000) (List.mem_of_getElem? (i := 4) rfl) rfl (Laws.TableWord.seI x nn rfl)

theorem encodedAs_sneI (x : RegIdx) (nn : Byte) : EncodedAs (0x4000 + 256 * x.val + nn.toNat) (.sneI x nn) :=
  encodedAs_regByte (bits := 0x4000) (List.mem_of_getElem? (i := 5) rfl) rfl (Laws.TableWord.sneI x nn rfl)

theorem encodedAs_seR (x y : RegIdx) : EncodedAs (0x5000 + 256 * x.val + 16 * y.val) (.seR x y) :=
  encodedAs_regReg (bits := 0x5000) (List.mem_of_getElem? (i := 6) rfl) (by decide) (Laws.TableWord.seR x y rfl)

theorem encodedAs_ldI (x : RegIdx) (nn : Byte) : EncodedAs (0x6000 + 256 * x.val + nn.toNat) (.ldI x nn) :=
  encodedAs_regByte (bits := 0x6000) (List.mem_of_getElem? (i := 7) rfl) rfl (Laws.TableWord.ldI x nn rfl)

theorem encodedAs_addI (x : RegIdx) (nn : Byte) : EncodedAs (0x7000 + 256 * x.val + nn.toNat) (.addI x nn) :=
  encodedAs_regByte (bits := 0x7000) (List.mem_of_getElem? (i := 8) rfl) rfl (Laws.TableWord.addI x nn rfl)

theorem encodedAs_ldR (x y : RegIdx) : EncodedAs (0x8000 + 256 * x.val + 16 * y.val) (.ldR x y) :=
  encodedAs_regReg (bits := 0x8000) (List.mem_of_getElem? (i := 9) rfl) (by decide) (Laws.TableWord.ldR x y rfl)

theorem encodedAs_sneR (x y : RegIdx) : EncodedAs (0x9000 + 256 * x.val + 16 * y.val) (.sneR x y) :=
  encodedAs_regReg (bits := 0x9000) (List.mem_of_getElem? (i := 18) rfl) (by decide) (Laws.TableWord.sneR x y rfl)

/-- The skip of two bytes that agree, the shape of 3xnn and 5xy0. -/
theorem advance_skipIf_beq (s : State) (a b : Byte) :
    s.advance.skipIf (a == b) = s.setPc (if a = b then s.pc + 4 else s.pc + 2) := by
  simp only [State.advance_skipIf, beq_iff_eq]

/-- The skip of two bytes that differ, the shape of 4xnn and 9xy0. -/
theorem advance_skipIf_bne (s : State) (a b : Byte) :
    s.advance.skipIf (a != b) = s.setPc (if a = b then s.pc + 2 else s.pc + 4) := by
  simp only [State.advance_skipIf, bne_iff_ne, ite_not]

theorem exec_seI (x : RegIdx) (nn : Byte) (s : State) :
    exec (.seI x nn) s = .next (s.setPc (if s.readV x = nn then s.pc + 4 else s.pc + 2)) :=
  congrArg Host.Outcome.next (advance_skipIf_beq s (s.readV x) nn)

theorem exec_sneI (x : RegIdx) (nn : Byte) (s : State) :
    exec (.sneI x nn) s = .next (s.setPc (if s.readV x = nn then s.pc + 2 else s.pc + 4)) :=
  congrArg Host.Outcome.next (advance_skipIf_bne s (s.readV x) nn)

theorem exec_seR (x y : RegIdx) (s : State) :
    exec (.seR x y) s = .next (s.setPc (if s.readV x = s.readV y then s.pc + 4 else s.pc + 2)) :=
  congrArg Host.Outcome.next (advance_skipIf_beq s (s.readV x) (s.readV y))

theorem exec_sneR (x y : RegIdx) (s : State) :
    exec (.sneR x y) s = .next (s.setPc (if s.readV x = s.readV y then s.pc + 2 else s.pc + 4)) :=
  congrArg Host.Outcome.next (advance_skipIf_bne s (s.readV x) (s.readV y))

theorem exec_ldI (x : RegIdx) (nn : Byte) (s : State) : exec (.ldI x nn) s = .next (s.advance.writeV x nn) := rfl

theorem exec_addI (x : RegIdx) (nn : Byte) (s : State) :
    exec (.addI x nn) s = .next (s.advance.writeV x (s.readV x + nn)) := rfl

theorem exec_ldR (x y : RegIdx) (s : State) : exec (.ldR x y) s = .next (s.advance.writeV x (s.readV y)) := rfl

/-- Settles O17: a skip is one update of PC; a skip taken at 0xFFE leaves PC at 0x1002, where the fetch offends. -/
theorem skipsCompareAndMoveOnlyPc : Obligations.SkipsCompareAndMoveOnlyPc := by
  refine fun x y nn => ⟨encodedAs_seI x nn, encodedAs_sneI x nn, encodedAs_seR x y, encodedAs_sneR x y,
    fun s => ⟨?_, ?_, ?_, ?_⟩⟩
  · refine ⟨_, exec_seI x nn s, rfl, sameExcept_setPc s _, fun hlast heq => ?_⟩
    rw [if_pos heq, hlast]
    exact State.fetch_error_of_ge (s := s.setPc 0x1002) (by rw [State.setPc_pc]; decide)
  · exact ⟨_, exec_sneI x nn s, rfl, sameExcept_setPc s _⟩
  · exact ⟨_, exec_seR x y s, rfl, sameExcept_setPc s _⟩
  · exact ⟨_, exec_sneR x y s, rfl, sameExcept_setPc s _⟩

/-- Settles O19: each is a PC advance and one register write, which differ in the byte written only. -/
theorem byteMovesAndAddImmediate : Obligations.ByteMovesAndAddImmediate := by
  refine fun x y nn => ⟨encodedAs_ldI x nn, encodedAs_addI x nn, encodedAs_ldR x y, fun s => ⟨?_, ?_, ?_⟩⟩
  · exact ⟨_, exec_ldI x nn s, State.readV_writeV_same _ x nn, advance_writeV_frame s x nn⟩
  · refine ⟨_, exec_addI x nn s, ?_, advance_writeV_frame s x _⟩
    rw [State.readV_writeV_same, BitVec.toNat_add]
  · exact ⟨_, exec_ldR x y s, State.readV_writeV_same _ x _, advance_writeV_frame s x _⟩

end Sys2Proof.Machine
end

section
/-! The obligation of the logic operations of family 8: OR, AND and exclusive OR (42_family_8_alu.md R92 to R94). -/

namespace Sys2Proof.Machine

theorem encodedAs_or (x y : RegIdx) : EncodedAs (0x8001 + 256 * x.val + 16 * y.val) (.or x y) :=
  encodedAs_regReg (bits := 0x8001) (List.mem_of_getElem? (i := 10) rfl) (by decide) (Laws.TableWord.or x y rfl)

theorem encodedAs_and (x y : RegIdx) : EncodedAs (0x8002 + 256 * x.val + 16 * y.val) (.and x y) :=
  encodedAs_regReg (bits := 0x8002) (List.mem_of_getElem? (i := 11) rfl) (by decide) (Laws.TableWord.and x y rfl)

theorem encodedAs_xor (x y : RegIdx) : EncodedAs (0x8003 + 256 * x.val + 16 * y.val) (.xor x y) :=
  encodedAs_regReg (bits := 0x8003) (List.mem_of_getElem? (i := 12) rfl) (by decide) (Laws.TableWord.xor x y rfl)

theorem exec_or (x y : RegIdx) (s : State) :
    exec (.or x y) s = .next (s.advance.writeV x (s.readV x ||| s.readV y)) := rfl

theorem exec_and (x y : RegIdx) (s : State) :
    exec (.and x y) s = .next (s.advance.writeV x (s.readV x &&& s.readV y)) := rfl

theorem exec_xor (x y : RegIdx) (s : State) :
    exec (.xor x y) s = .next (s.advance.writeV x (s.readV x ^^^ s.readV y)) := rfl

/-- Settles O20: each is a PC advance and one write of V[x], so V[F] is kept as any register other than x. -/
theorem logicWritesOnlyVx : Obligations.LogicWritesOnlyVx := by
  refine fun x y => ⟨encodedAs_or x y, encodedAs_and x y, encodedAs_xor x y, fun s => ⟨?_, ?_, ?_⟩⟩
  · refine ⟨_, exec_or x y s, fun b _ => ?_, advance_writeV_frame s x _⟩
    rw [State.readV_writeV_same, BitVec.getLsbD_or]
  · refine ⟨_, exec_and x y s, fun b _ => ?_, advance_writeV_frame s x _⟩
    rw [State.readV_writeV_same, BitVec.getLsbD_and]
  · refine ⟨_, exec_xor x y s, fun b _ => ?_, advance_writeV_frame s x _⟩
    rw [State.readV_writeV_same, BitVec.getLsbD_xor]

end Sys2Proof.Machine
end

section
/-! SUPPORT. The words of format XF (30_encoding.md R62). -/

namespace Sys2Proof

open Sys2Proof.Machine in
/-- The word of a row of format XF is its class and function byte plus x, where the encoder gives that number
(30_encoding.md R62, R70). -/
theorem encodedAs_regFunct {bits : Word} {x : RegIdx} {f : RegIdx → Instr}
    (hrow : Row.regFunct bits f ∈ opcodeMap) (hbits : bits.toNat % 4096 < 256)
    (henc : (encode (f x)).toNat = bits.toNat + 256 * x.val) :
    EncodedAs (bits.toNat + 256 * x.val) (f x) := by
  refine ⟨?_, henc⟩
  generalize hw : bits.toNat + 256 * x.val = w
  have hop : (BitVec.ofNat 16 w).toNat = w := Nat.mod_eq_of_lt (by omega)
  have hfits : (Row.regFunct bits f).fits (BitVec.ofNat 16 w) = true := by
    rw [Row.fits_regFunct, hop, decide_eq_true_eq]
    omega
  have hx := fieldX_eq_of_toNat_div (BitVec.ofNat 16 w) x (by omega)
  exact (decode_of_fits hrow hfits).trans (congrArg (fun a => Except.ok (f a)) hx)

end Sys2Proof
end

section
/-! The obligation of the three writes of I (43_family_9-C_misc.md R101, 46_family_F_timer_index_memory.md R119, R120). -/

namespace Sys2Proof.Machine

theorem encodedAs_ldIdx (nnn : Word) (h : nnn.toNat < 4096) : EncodedAs (0xA000 + nnn.toNat) (.ldIdx nnn) :=
  encodedAs_address (bits := 0xA000) (List.mem_of_getElem? (i := 19) rfl) rfl h
    (Laws.TableWord.ldIdx nnn (decide_eq_true h))

theorem encodedAs_addIdx (x : RegIdx) : EncodedAs (0xF01E + 256 * x.val) (.addIdx x) :=
  encodedAs_regFunct (bits := 0xF01E) (List.mem_of_getElem? (i := 29) rfl) (by decide) (Laws.TableWord.addIdx x rfl)

theorem encodedAs_ldF (x : RegIdx) : EncodedAs (0xF029 + 256 * x.val) (.ldF x) :=
  encodedAs_regFunct (bits := 0xF029) (List.mem_of_getElem? (i := 30) rfl) (by decide) (Laws.TableWord.ldF x rfl)

theorem exec_ldIdx (nnn : Word) (s : State) : exec (.ldIdx nnn) s = .next (s.advance.setI nnn) := rfl

theorem exec_addIdx (x : RegIdx) (s : State) :
    exec (.addIdx x) s = .next (s.advance.setI (s.i + (s.readV x).zext)) := rfl

theorem exec_ldF (x : RegIdx) (s : State) : exec (.ldF x) s = .next (s.advance.setI (glyphAddress (s.readV x))) := rfl

theorem sameExcept_setI (s : State) (w : Word) : SameExcept [.index] s (s.setI w) := fun p hp => by
  cases p with
  | index => exact absurd (List.mem_singleton_self _) hp
  | stack => exact ⟨rfl, fun _ => rfl⟩
  | memory | registers | keys => exact fun _ => rfl
  | screen => exact fun _ _ => rfl
  | pc | delay | sound | mode | fault | environment => rfl

/-- An instruction that only writes I: PC advances and every other part is kept, V[F] among the registers. -/
theorem advance_setI_frame (s : State) (w : Word) :
    (s.advance.setI w).pc = s.pc + 2 ∧ SameExcept [.index, .pc] s (s.advance.setI w) := by
  refine ⟨?_, (sameExcept_advance s).trans (sameExcept_setI _ w)⟩
  rw [State.setI_pc, State.advance_pc]

/-- A byte added to a word wraps at 16 bits (46_family_F_timer_index_memory.md R119). -/
theorem toNat_word_add_byte (w : Word) (b : Byte) : (w + b.zext).toNat = (w.toNat + b.toNat) % 65536 := by
  rw [BitVec.toNat_add, BitVec.toNat_setWidth_of_le (by omega)]

/-- Settles O24: each is a PC advance and one write of I, which differ in the word written only. -/
theorem indexWritesChangeOnlyI : Obligations.IndexWritesChangeOnlyI := by
  refine fun x nnn hnnn => ⟨encodedAs_ldIdx nnn hnnn, encodedAs_addIdx x, encodedAs_ldF x, fun s => ⟨?_, ?_, ?_⟩⟩
  · exact ⟨_, exec_ldIdx nnn s, State.setI_i _ nnn, advance_setI_frame s nnn⟩
  · refine ⟨_, exec_addIdx x s, ?_, advance_setI_frame s _⟩
    rw [State.setI_i, toNat_word_add_byte]
  · refine ⟨_, exec_ldF x s, ?_, advance_setI_frame s _⟩
    rw [State.setI_i, glyphAddress_toNat]

end Sys2Proof.Machine
end

section
/-! The obligation of the three timer moves (46_family_F_timer_index_memory.md R115, R117, R118). -/

namespace Sys2Proof.Machine

theorem encodedAs_ldVxDt (x : RegIdx) : EncodedAs (0xF007 + 256 * x.val) (.ldVxDt x) :=
  encodedAs_regFunct (bits := 0xF007) (List.mem_of_getElem? (i := 25) rfl) (by decide) (Laws.TableWord.ldVxDt x rfl)

theorem encodedAs_ldDtVx (x : RegIdx) : EncodedAs (0xF015 + 256 * x.val) (.ldDtVx x) :=
  encodedAs_regFunct (bits := 0xF015) (List.mem_of_getElem? (i := 27) rfl) (by decide) (Laws.TableWord.ldDtVx x rfl)

theorem encodedAs_ldStVx (x : RegIdx) : EncodedAs (0xF018 + 256 * x.val) (.ldStVx x) :=
  encodedAs_regFunct (bits := 0xF018) (List.mem_of_getElem? (i := 28) rfl) (by decide) (Laws.TableWord.ldStVx x rfl)

theorem exec_ldVxDt (x : RegIdx) (s : State) : exec (.ldVxDt x) s = .next (s.advance.writeV x s.dt) := rfl

theorem exec_ldDtVx (x : RegIdx) (s : State) : exec (.ldDtVx x) s = .next (s.advance.setDt (s.readV x)) := rfl

theorem exec_ldStVx (x : RegIdx) (s : State) : exec (.ldStVx x) s = .next (s.advance.setSt (s.readV x)) := rfl

theorem sameExcept_setDt (s : State) (b : Byte) : SameExcept [.delay] s (s.setDt b) := fun p hp => by
  cases p with
  | delay => exact absurd (List.mem_singleton_self _) hp
  | stack => exact ⟨rfl, fun _ => rfl⟩
  | memory | registers | keys => exact fun _ => rfl
  | screen => exact fun _ _ => rfl
  | index | pc | sound | mode | fault | environment => rfl

theorem sameExcept_setSt (s : State) (b : Byte) : SameExcept [.sound] s (s.setSt b) := fun p hp => by
  cases p with
  | sound => exact absurd (List.mem_singleton_self _) hp
  | stack => exact ⟨rfl, fun _ => rfl⟩
  | memory | registers | keys => exact fun _ => rfl
  | screen => exact fun _ _ => rfl
  | index | pc | delay | mode | fault | environment => rfl

/-- An instruction that only writes DT: PC advances and every other part is kept. -/
theorem advance_setDt_frame (s : State) (b : Byte) :
    (s.advance.setDt b).pc = s.pc + 2 ∧ SameExcept [.delay, .pc] s (s.advance.setDt b) := by
  refine ⟨?_, (sameExcept_advance s).trans (sameExcept_setDt _ b)⟩
  rw [State.setDt_pc, State.advance_pc]

/-- An instruction that only writes ST: PC advances and every other part is kept. -/
theorem advance_setSt_frame (s : State) (b : Byte) :
    (s.advance.setSt b).pc = s.pc + 2 ∧ SameExcept [.sound, .pc] s (s.advance.setSt b) := by
  refine ⟨?_, (sameExcept_advance s).trans (sameExcept_setSt _ b)⟩
  rw [State.setSt_pc, State.advance_pc]

theorem soundActive_iff_st_ne_zero (s : State) : soundActive s = true ↔ s.st ≠ 0 := by
  rw [soundActive, decide_eq_true_iff, gt_iff_lt, Nat.pos_iff_ne_zero]
  exact not_congr (BitVec.toNat_inj (y := 0#8))

/-- Settles O25: each is a PC advance and one write of a byte, to V[x], to DT or to ST; `soundActive` reads the ST written. -/
theorem timerMovesChangeOnlyTheirDestination : Obligations.TimerMovesChangeOnlyTheirDestination := by
  refine fun x => ⟨encodedAs_ldVxDt x, encodedAs_ldDtVx x, encodedAs_ldStVx x, fun s => ⟨?_, ?_, ?_⟩⟩
  · exact ⟨_, exec_ldVxDt x s, State.readV_writeV_same _ x _, advance_writeV_frame s x _⟩
  · exact ⟨_, exec_ldDtVx x s, State.setDt_dt _ _, advance_setDt_frame s _⟩
  · refine ⟨_, exec_ldStVx x s, State.setSt_st _ _, ?_, advance_setSt_frame s _⟩
    rw [soundActive_iff_st_ne_zero, State.setSt_st]

end Sys2Proof.Machine
end

section
/-! SUPPORT. The words of format XYN and of the instructions no section above encodes (30_encoding.md R62, R65). -/

namespace Sys2Proof.Machine

/-- The word of a row of format XYN is its class plus x, y and n, where the encoder gives that number
(30_encoding.md R62, R70). -/
theorem encodedAs_regRegNibble {bits : Word} {x y : RegIdx} {n : Nat} {f : RegIdx → RegIdx → Nat → Instr}
    (hrow : Row.regRegNibble bits f ∈ opcodeMap) (hbits : bits.toNat % 4096 = 0) (hn : n < 16)
    (henc : (encode (f x y n)).toNat = bits.toNat + 256 * x.val + 16 * y.val + n) :
    EncodedAs (bits.toNat + 256 * x.val + 16 * y.val + n) (f x y n) := by
  refine ⟨?_, henc⟩
  generalize hw : bits.toNat + 256 * x.val + 16 * y.val + n = w
  have hop : (BitVec.ofNat 16 w).toNat = w := Nat.mod_eq_of_lt (by omega)
  have hfits : (Row.regRegNibble bits f).fits (BitVec.ofNat 16 w) = true := by
    rw [Row.fits_regRegNibble, hop, decide_eq_true_eq]
    omega
  have hx := fieldX_eq_of_toNat_div (BitVec.ofNat 16 w) x (by omega)
  have hy := fieldY_eq_of_toNat_div (BitVec.ofNat 16 w) y (by omega)
  have hheight : fieldN (BitVec.ofNat 16 w) = n := by
    rw [fieldN_eq, hop]
    omega
  rw [decode_of_fits hrow hfits]
  change Except.ok (f (fieldX _) (fieldY _) (fieldN _)) = _
  rw [hx, hy, hheight]

theorem encodedAs_ret : EncodedAs 0x00EE .ret := ⟨rfl, rfl⟩

theorem encodedAs_call (nnn : Word) (h : nnn.toNat < 4096) : EncodedAs (0x2000 + nnn.toNat) (.call nnn) :=
  encodedAs_address (bits := 0x2000) (List.mem_of_getElem? (i := 3) rfl) rfl h
    (Laws.TableWord.call nnn (decide_eq_true h))

theorem encodedAs_addR (x y : RegIdx) : EncodedAs (0x8004 + 256 * x.val + 16 * y.val) (.addR x y) :=
  encodedAs_regReg (bits := 0x8004) (List.mem_of_getElem? (i := 13) rfl) (by decide) (Laws.TableWord.addR x y rfl)

theorem encodedAs_sub (x y : RegIdx) : EncodedAs (0x8005 + 256 * x.val + 16 * y.val) (.sub x y) :=
  encodedAs_regReg (bits := 0x8005) (List.mem_of_getElem? (i := 14) rfl) (by decide) (Laws.TableWord.sub x y rfl)

theorem encodedAs_shr (x y : RegIdx) : EncodedAs (0x8006 + 256 * x.val + 16 * y.val) (.shr x y) :=
  encodedAs_regReg (bits := 0x8006) (List.mem_of_getElem? (i := 15) rfl) (by decide) (Laws.TableWord.shr x y rfl)

theorem encodedAs_subn (x y : RegIdx) : EncodedAs (0x8007 + 256 * x.val + 16 * y.val) (.subn x y) :=
  encodedAs_regReg (bits := 0x8007) (List.mem_of_getElem? (i := 16) rfl) (by decide) (Laws.TableWord.subn x y rfl)

theorem encodedAs_shl (x y : RegIdx) : EncodedAs (0x800E + 256 * x.val + 16 * y.val) (.shl x y) :=
  encodedAs_regReg (bits := 0x800E) (List.mem_of_getElem? (i := 17) rfl) (by decide) (Laws.TableWord.shl x y rfl)

theorem encodedAs_rnd (x : RegIdx) (nn : Byte) : EncodedAs (0xC000 + 256 * x.val + nn.toNat) (.rnd x nn) :=
  encodedAs_regByte (bits := 0xC000) (List.mem_of_getElem? (i := 21) rfl) rfl (Laws.TableWord.rnd x nn rfl)

theorem encodedAs_drw (x y : RegIdx) (n : Nat) (h : n < 16) :
    EncodedAs (0xD000 + 256 * x.val + 16 * y.val + n) (.drw x y n) :=
  encodedAs_regRegNibble (bits := 0xD000) (List.mem_of_getElem? (i := 22) rfl) rfl h
    (Laws.TableWord.drw x y n (decide_eq_true h))

theorem encodedAs_skp (x : RegIdx) : EncodedAs (0xE09E + 256 * x.val) (.skp x) :=
  encodedAs_regFunct (bits := 0xE09E) (List.mem_of_getElem? (i := 23) rfl) (by decide) (Laws.TableWord.skp x rfl)

theorem encodedAs_sknp (x : RegIdx) : EncodedAs (0xE0A1 + 256 * x.val) (.sknp x) :=
  encodedAs_regFunct (bits := 0xE0A1) (List.mem_of_getElem? (i := 24) rfl) (by decide) (Laws.TableWord.sknp x rfl)

theorem encodedAs_ldVxK (x : RegIdx) : EncodedAs (0xF00A + 256 * x.val) (.ldVxK x) :=
  encodedAs_regFunct (bits := 0xF00A) (List.mem_of_getElem? (i := 26) rfl) (by decide) (Laws.TableWord.ldVxK x rfl)

theorem encodedAs_ldB (x : RegIdx) : EncodedAs (0xF033 + 256 * x.val) (.ldB x) :=
  encodedAs_regFunct (bits := 0xF033) (List.mem_of_getElem? (i := 31) rfl) (by decide) (Laws.TableWord.ldB x rfl)

theorem encodedAs_stRegs (x : RegIdx) : EncodedAs (0xF055 + 256 * x.val) (.stRegs x) :=
  encodedAs_regFunct (bits := 0xF055) (List.mem_of_getElem? (i := 32) rfl) (by decide) (Laws.TableWord.stRegs x rfl)

theorem encodedAs_ldRegs (x : RegIdx) : EncodedAs (0xF065 + 256 * x.val) (.ldRegs x) :=
  encodedAs_regFunct (bits := 0xF065) (List.mem_of_getElem? (i := 33) rfl) (by decide) (Laws.TableWord.ldRegs x rfl)

/-- The number an instruction is encoded as is the word the encoder gives, so that word decodes to it. -/
theorem EncodedAs.decode_encode {w : Nat} {i : Instr} (h : EncodedAs w i) : decode (encode i) = .ok i := by
  obtain ⟨hdec, henc⟩ := h
  rwa [← henc, BitVec.ofNat_toNat, BitVec.setWidth_eq] at hdec

end Sys2Proof.Machine
end

section
/-! SUPPORT. The opcode map read backwards: a word that fits a row is the table number of the instruction the row builds
(30_encoding.md R65, R70). -/

namespace Sys2Proof

open Laws.TableWord (tableNumber)

/-- The encoder gives every well-formed instruction its table number. -/
theorem encode_toNat (i : Instr) (h : i.wellFormed = true) : (encode i).toNat = tableNumber i := by
  cases i with
  | cls => exact Laws.TableWord.cls h
  | ret => exact Laws.TableWord.ret h
  | jp nnn => exact Laws.TableWord.jp nnn h
  | call nnn => exact Laws.TableWord.call nnn h
  | seI x nn => exact Laws.TableWord.seI x nn h
  | sneI x nn => exact Laws.TableWord.sneI x nn h
  | seR x y => exact Laws.TableWord.seR x y h
  | ldI x nn => exact Laws.TableWord.ldI x nn h
  | addI x nn => exact Laws.TableWord.addI x nn h
  | ldR x y => exact Laws.TableWord.ldR x y h
  | or x y => exact Laws.TableWord.or x y h
  | and x y => exact Laws.TableWord.and x y h
  | xor x y => exact Laws.TableWord.xor x y h
  | addR x y => exact Laws.TableWord.addR x y h
  | sub x y => exact Laws.TableWord.sub x y h
  | shr x y => exact Laws.TableWord.shr x y h
  | subn x y => exact Laws.TableWord.subn x y h
  | shl x y => exact Laws.TableWord.shl x y h
  | sneR x y => exact Laws.TableWord.sneR x y h
  | ldIdx nnn => exact Laws.TableWord.ldIdx nnn h
  | jpV0 nnn => exact Laws.TableWord.jpV0 nnn h
  | rnd x nn => exact Laws.TableWord.rnd x nn h
  | drw x y n => exact Laws.TableWord.drw x y n h
  | skp x => exact Laws.TableWord.skp x h
  | sknp x => exact Laws.TableWord.sknp x h
  | ldVxDt x => exact Laws.TableWord.ldVxDt x h
  | ldVxK x => exact Laws.TableWord.ldVxK x h
  | ldDtVx x => exact Laws.TableWord.ldDtVx x h
  | ldStVx x => exact Laws.TableWord.ldStVx x h
  | addIdx x => exact Laws.TableWord.addIdx x h
  | ldF x => exact Laws.TableWord.ldF x h
  | ldB x => exact Laws.TableWord.ldB x h
  | stRegs x => exact Laws.TableWord.stRegs x h
  | ldRegs x => exact Laws.TableWord.ldRegs x h

/-- Every word that fits the row is the table number of the well-formed instruction the row builds from it. -/
def Row.Inverts (r : Row) : Prop :=
  ∀ op : Word, r.fits op = true → (r.build op).wellFormed = true ∧ tableNumber (r.build op) = op.toNat

theorem inverts_whole {bits : Word} {i : Instr} (hwf : i.wellFormed = true) (hnum : tableNumber i = bits.toNat) :
    (Row.whole bits i).Inverts := fun op hf => by
  rw [Row.fits_whole, decide_eq_true_eq] at hf
  exact ⟨hwf, hnum.trans hf.symm⟩

theorem inverts_address {bits : Word} {f : Word → Instr} (hwf : ∀ nnn, (f nnn).wellFormed = fitsAddress nnn)
    (hnum : ∀ nnn, tableNumber (f nnn) = bits.toNat + nnn.toNat) : (Row.address bits f).Inverts := fun op hf => by
  rw [Row.fits_address, decide_eq_true_eq] at hf
  have hnnn := fieldNNN_toNat op
  refine ⟨(hwf _).trans (decide_eq_true (by omega)), (hnum _).trans (by omega)⟩

theorem inverts_regByte {bits : Word} {f : RegIdx → Byte → Instr} (hwf : ∀ x nn, (f x nn).wellFormed = true)
    (hnum : ∀ x nn, tableNumber (f x nn) = bits.toNat + 256 * x.val + nn.toNat) :
    (Row.regByte bits f).Inverts := fun op hf => by
  rw [Row.fits_regByte, decide_eq_true_eq] at hf
  have hx := fieldX_val op
  have hnn := fieldNN_toNat op
  exact ⟨hwf _ _, (hnum _ _).trans (by omega)⟩

theorem inverts_regReg {bits : Word} {f : RegIdx → RegIdx → Instr} (hwf : ∀ x y, (f x y).wellFormed = true)
    (hnum : ∀ x y, tableNumber (f x y) = bits.toNat + 256 * x.val + 16 * y.val) :
    (Row.regReg bits f).Inverts := fun op hf => by
  rw [Row.fits_regReg, decide_eq_true_eq] at hf
  have hx := fieldX_val op
  have hy := fieldY_val op
  exact ⟨hwf _ _, (hnum _ _).trans (by omega)⟩

theorem inverts_regRegNibble {bits : Word} {f : RegIdx → RegIdx → Nat → Instr}
    (hwf : ∀ x y n, (f x y n).wellFormed = fitsHeight n)
    (hnum : ∀ x y n, tableNumber (f x y n) = bits.toNat + 256 * x.val + 16 * y.val + n) :
    (Row.regRegNibble bits f).Inverts := fun op hf => by
  rw [Row.fits_regRegNibble, decide_eq_true_eq] at hf
  have hx := fieldX_val op
  have hy := fieldY_val op
  have hn := fieldN_eq op
  exact ⟨(hwf _ _ _).trans (decide_eq_true (by omega)), (hnum _ _ _).trans (by omega)⟩

theorem inverts_regFunct {bits : Word} {f : RegIdx → Instr} (hwf : ∀ x, (f x).wellFormed = true)
    (hnum : ∀ x, tableNumber (f x) = bits.toNat + 256 * x.val) : (Row.regFunct bits f).Inverts := fun op hf => by
  rw [Row.fits_regFunct, decide_eq_true_eq] at hf
  have hx := fieldX_val op
  exact ⟨hwf _, (hnum _).trans (by omega)⟩

theorem inverts_rowsControl : ∀ r ∈ rowsControl, r.Inverts := by
  simp only [rowsControl, List.forall_mem_cons]
  exact ⟨inverts_whole rfl rfl, inverts_whole rfl rfl, inverts_address (fun _ => rfl) fun _ => rfl,
    inverts_address (fun _ => rfl) fun _ => rfl, inverts_regByte (fun _ _ => rfl) fun _ _ => rfl,
    inverts_regByte (fun _ _ => rfl) fun _ _ => rfl, inverts_regReg (fun _ _ => rfl) fun _ _ => rfl,
    inverts_regByte (fun _ _ => rfl) fun _ _ => rfl, inverts_regByte (fun _ _ => rfl) fun _ _ => rfl, by simp⟩

theorem inverts_rowsAlu : ∀ r ∈ rowsAlu, r.Inverts := by
  simp only [rowsAlu, List.forall_mem_cons]
  refine ⟨?_, ?_, ?_, ?_, ?_, ?_, ?_, ?_, ?_, by simp⟩ <;> exact inverts_regReg (fun _ _ => rfl) fun _ _ => rfl

theorem inverts_rowsMisc : ∀ r ∈ rowsMisc, r.Inverts := by
  simp only [rowsMisc, List.forall_mem_cons]
  exact ⟨inverts_regReg (fun _ _ => rfl) fun _ _ => rfl, inverts_address (fun _ => rfl) fun _ => rfl,
    inverts_address (fun _ => rfl) fun _ => rfl, inverts_regByte (fun _ _ => rfl) fun _ _ => rfl,
    inverts_regRegNibble (fun _ _ _ => rfl) fun _ _ _ => rfl, inverts_regFunct (fun _ => rfl) fun _ => rfl,
    inverts_regFunct (fun _ => rfl) fun _ => rfl, by simp⟩

theorem inverts_rowsF : ∀ r ∈ rowsF, r.Inverts := by
  simp only [rowsF, List.forall_mem_cons]
  refine ⟨?_, ?_, ?_, ?_, ?_, ?_, ?_, ?_, ?_, by simp⟩ <;> exact inverts_regFunct (fun _ => rfl) fun _ => rfl

theorem inverts_opcodeMap : ∀ r ∈ opcodeMap, r.Inverts := by
  simp only [opcodeMap, List.forall_mem_append]
  exact ⟨inverts_rowsControl, inverts_rowsAlu, inverts_rowsMisc, inverts_rowsF⟩

/-- What decodes was built by a row that fits. -/
theorem exists_row_of_decode {op : Word} {i : Instr} (h : decode op = .ok i) :
    ∃ r ∈ opcodeMap, r.fits op = true ∧ r.build op = i := by
  unfold decode at h
  split at h
  next r hfind =>
    exact ⟨r, List.mem_of_find?_eq_some hfind, List.find?_some (p := fun row : Row => row.fits op) hfind, Except.ok.inj h⟩
  next => cases h

/-- Of rows that pairwise disagree in a bit both masks fix, at most one fits a word. -/
theorem length_le_one_of_fits {rows : List Row} {op : Word}
    (hconflicts : rows.Pairwise (fun r r' => (r.bits ^^^ r'.bits) &&& (r.mask &&& r'.mask) ≠ 0))
    (hfits : ∀ r ∈ rows, r.fits op = true) : rows.length ≤ 1 := by
  match rows with
  | [] => exact Nat.zero_le 1
  | [_] => exact le_rfl
  | r :: r' :: _ =>
    have hr' : r'.fits op = true := hfits r' (List.mem_cons_of_mem r List.mem_cons_self)
    have hr : r.fits op = false :=
      Row.fits_false_of_conflict hr' ((List.pairwise_cons.mp hconflicts).1 r' List.mem_cons_self)
    exact absurd (hfits r List.mem_cons_self) (hr ▸ Bool.false_ne_true)

/-- A word is rejected exactly where no row fits it (30_encoding.md R64, R66). -/
theorem decode_eq_unknown_iff (op : Word) :
    decode op = .error (.unknownOpcode op) ↔ ∀ r ∈ opcodeMap, r.fits op = false := by
  refine ⟨fun h r hr => ?_, fun h => ?_⟩
  · by_contra hf
    rw [decode_of_fits hr (Bool.of_not_eq_false hf)] at h
    cases h
  · have hnone : opcodeMap.find? (fun r => r.fits op) = none :=
      List.find?_eq_none.mpr fun r hr => by rw [h r hr]; exact Bool.false_ne_true
    rw [decode, hnone]

end Sys2Proof
end

section
/-! The obligations of encoding and decoding (30_encoding.md sections 4, 6 and 8). -/

namespace Sys2Proof.Machine

/-- Settles O1: every instruction is encoded as the number its format gives, and that number decodes to it. -/
theorem decodeInvertsEncode : Obligations.DecodeInvertsEncode := fun i hwf => by
  cases i with
  | cls => exact encodedAs_cls.decode_encode
  | ret => exact encodedAs_ret.decode_encode
  | jp nnn => exact (encodedAs_jp nnn (of_decide_eq_true hwf)).decode_encode
  | call nnn => exact (encodedAs_call nnn (of_decide_eq_true hwf)).decode_encode
  | seI x nn => exact (encodedAs_seI x nn).decode_encode
  | sneI x nn => exact (encodedAs_sneI x nn).decode_encode
  | seR x y => exact (encodedAs_seR x y).decode_encode
  | ldI x nn => exact (encodedAs_ldI x nn).decode_encode
  | addI x nn => exact (encodedAs_addI x nn).decode_encode
  | ldR x y => exact (encodedAs_ldR x y).decode_encode
  | or x y => exact (encodedAs_or x y).decode_encode
  | and x y => exact (encodedAs_and x y).decode_encode
  | xor x y => exact (encodedAs_xor x y).decode_encode
  | addR x y => exact (encodedAs_addR x y).decode_encode
  | sub x y => exact (encodedAs_sub x y).decode_encode
  | shr x y => exact (encodedAs_shr x y).decode_encode
  | subn x y => exact (encodedAs_subn x y).decode_encode
  | shl x y => exact (encodedAs_shl x y).decode_encode
  | sneR x y => exact (encodedAs_sneR x y).decode_encode
  | ldIdx nnn => exact (encodedAs_ldIdx nnn (of_decide_eq_true hwf)).decode_encode
  | jpV0 nnn => exact (encodedAs_jpV0 nnn (of_decide_eq_true hwf)).decode_encode
  | rnd x nn => exact (encodedAs_rnd x nn).decode_encode
  | drw x y n => exact (encodedAs_drw x y n (of_decide_eq_true hwf)).decode_encode
  | skp x => exact (encodedAs_skp x).decode_encode
  | sknp x => exact (encodedAs_sknp x).decode_encode
  | ldVxDt x => exact (encodedAs_ldVxDt x).decode_encode
  | ldVxK x => exact (encodedAs_ldVxK x).decode_encode
  | ldDtVx x => exact (encodedAs_ldDtVx x).decode_encode
  | ldStVx x => exact (encodedAs_ldStVx x).decode_encode
  | addIdx x => exact (encodedAs_addIdx x).decode_encode
  | ldF x => exact (encodedAs_ldF x).decode_encode
  | ldB x => exact (encodedAs_ldB x).decode_encode
  | stRegs x => exact (encodedAs_stRegs x).decode_encode
  | ldRegs x => exact (encodedAs_ldRegs x).decode_encode

/-- Settles O2: the row that built the instruction is inverted by the table number, which is what the encoder gives. -/
theorem encodeInvertsDecode : Obligations.EncodeInvertsDecode := fun op i hdec => by
  obtain ⟨r, hr, hfits, rfl⟩ := exists_row_of_decode hdec
  obtain ⟨hwf, hnum⟩ := inverts_opcodeMap r hr op hfits
  exact ⟨BitVec.eq_of_toNat_eq ((encode_toNat _ hwf).trans hnum), hwf⟩

/-- Settles O3: the rows that fit a word pairwise conflict, so there are not two of them. -/
theorem decodeFindsTheOnlyFittingRow : Obligations.DecodeFindsTheOnlyFittingRow := by
  refine ⟨rfl, fun op => ⟨?_, fun r hr hf => decode_of_fits hr hf, (decode_eq_unknown_iff op).mpr⟩⟩
  exact length_le_one_of_fits (opcodeMap_conflicts.sublist List.filter_sublist) fun r hr => (List.mem_filter.mp hr).2

/-- Settles O4: a word is unknown where every row's number differs from what its mask keeps; class by class these are the listed
words. -/
theorem unknownWordsClassByClass : Obligations.UnknownWordsClassByClass := fun op => by
  have hop := op.isLt
  rw [decode_eq_unknown_iff]
  simp only [opcodeMap, rowsControl, rowsAlu, rowsMisc, rowsF, List.cons_append, List.nil_append, List.forall_mem_cons,
    Row.fits_whole, Row.fits_address, Row.fits_regByte, Row.fits_regReg, Row.fits_regRegNibble, Row.fits_regFunct,
    decide_eq_false_iff_not]
  have hclass : op.toNat / 4096 < 16 := by omega
  generalize hc : op.toNat / 4096 = c at hclass ⊢
  interval_cases c <;> simp <;> omega

/-- Settles O5: each word is read by the row of its pattern. -/
theorem sampleWordsDecode : Obligations.SampleWordsDecode := ⟨rfl, rfl, rfl, rfl, rfl, rfl, rfl, rfl, rfl, rfl⟩

end Sys2Proof.Machine
end

section
/-! SUPPORT. The frames of the remaining updates, and a fatal fault as one of them (60_exceptions.md R133). -/

namespace Sys2Proof.Machine

theorem sameExcept_setV (s : State) (v : Vector Byte 16) : SameExcept [.registers] s (s.setV v) := fun p hp => by
  cases p with
  | registers => exact absurd (List.mem_singleton_self _) hp
  | stack => exact ⟨rfl, fun _ => rfl⟩
  | memory | keys => exact fun _ => rfl
  | screen => exact fun _ _ => rfl
  | index | pc | delay | sound | mode | fault | environment => rfl

theorem sameExcept_setMem (s : State) (m : Memory) : SameExcept [.memory] s (s.setMem m) := fun p hp => by
  cases p with
  | memory => exact absurd (List.mem_singleton_self _) hp
  | stack => exact ⟨rfl, fun _ => rfl⟩
  | registers | keys => exact fun _ => rfl
  | screen => exact fun _ _ => rfl
  | index | pc | delay | sound | mode | fault | environment => rfl

theorem sameExcept_setStack (s : State) (cells : Vector Word 16) (sp : Fin 17) :
    SameExcept [.stack] s (s.setStack cells sp) := fun p hp => by
  cases p with
  | stack => exact absurd (List.mem_singleton_self _) hp
  | memory | registers | keys => exact fun _ => rfl
  | screen => exact fun _ _ => rfl
  | index | pc | delay | sound | mode | fault | environment => rfl

theorem sameExcept_setEnv (s : State) (e : Environment) : SameExcept [.environment] s (s.setEnv e) := fun p hp => by
  cases p with
  | environment => exact absurd (List.mem_singleton_self _) hp
  | stack => exact ⟨rfl, fun _ => rfl⟩
  | memory | registers | keys => exact fun _ => rfl
  | screen => exact fun _ _ => rfl
  | index | pc | delay | sound | mode | fault => rfl

theorem sameExcept_setMode (s : State) (m : RunMode) : SameExcept [.mode] s (s.setMode m) := fun p hp => by
  cases p with
  | mode => exact absurd (List.mem_singleton_self _) hp
  | stack => exact ⟨rfl, fun _ => rfl⟩
  | memory | registers | keys => exact fun _ => rfl
  | screen => exact fun _ _ => rfl
  | index | pc | delay | sound | fault | environment => rfl

theorem sameExcept_setKey (s : State) (k : KeyIdx) (on : Bool) : SameExcept [.keys] s (s.setKey k on) := fun p hp => by
  cases p with
  | keys => exact absurd (List.mem_singleton_self _) hp
  | stack => exact ⟨rfl, fun _ => rfl⟩
  | memory | registers => exact fun _ => rfl
  | screen => exact fun _ _ => rfl
  | index | pc | delay | sound | mode | fault | environment => rfl

theorem sameExcept_raiseFault (s : State) (kind : ErrorKind) (op : Option Word) (addr : Option Nat) :
    SameExcept [.mode, .fault] s (s.raiseFault kind op addr) := fun p hp => by
  cases p with
  | mode => exact absurd List.mem_cons_self hp
  | fault => exact absurd (List.mem_cons_of_mem _ (List.mem_singleton_self _)) hp
  | stack => exact ⟨rfl, fun _ => rfl⟩
  | memory | registers | keys => exact fun _ => rfl
  | screen => exact fun _ _ => rfl
  | index | pc | delay | sound | environment => rfl

theorem SameExcept.refl (ps : List Part) (s : State) : SameExcept ps s s := fun p _ => by
  cases p with
  | stack => exact ⟨rfl, fun _ => rfl⟩
  | memory | registers | keys => exact fun _ => rfl
  | screen => exact fun _ _ => rfl
  | index | pc | delay | sound | mode | fault | environment => rfl

/-- A frame may be weakened to any longer list of changed parts. -/
theorem SameExcept.mono {ps qs : List Part} {s t : State} (h : SameExcept ps s t) (hsub : ps ⊆ qs) : SameExcept qs s t :=
  fun p hp => h p fun hmem => hp (hsub hmem)

theorem faultTaken_raiseFault (s : State) (kind : ErrorKind) (op : Option Word) (addr : Option Nat) :
    FaultTaken kind op addr s (s.raiseFault kind op addr) :=
  ⟨rfl, rfl, sameExcept_raiseFault s kind op addr⟩

/-- The advanced PC differs from pc0. -/
theorem pc_add_two_ne (w : Word) : w + 2 ≠ w := fun h => by
  have hnat := congrArg BitVec.toNat h
  rw [BitVec.toNat_add] at hnat
  have hw := w.isLt
  have h2 : (2 : Word).toNat = 2 := rfl
  omega

/-- A Step whose PC advance is kept took no fault (decision D5). -/
theorem not_faultTaken_of_advanced {kind : ErrorKind} {op : Option Word} {addr : Option Nat} {s t : State}
    (hpc : t.pc = s.pc + 2) : ¬ FaultTaken kind op addr s t := fun ⟨_, _, hframe⟩ =>
  pc_add_two_ne s.pc (hpc.symm.trans (hframe .pc (by decide)))

theorem toNat_pc_add_two {w : Word} (h : w.toNat < 0xFFF) : (w + 2).toNat = w.toNat + 2 := by
  have h2 : (2 : Word).toNat = 2 := rfl
  rw [BitVec.toNat_add, h2]
  omega

theorem toNat_pc_add_four {w : Word} (h : w.toNat < 0xFFF) : (w + 4).toNat = w.toNat + 4 := by
  have h4 : (4 : Word).toNat = 4 := rfl
  rw [BitVec.toNat_add, h4]
  omega

end Sys2Proof.Machine
end

section
/-! SUPPORT. What one instruction can do, said once: `Effect s i t` names the update by which `t` comes from `s`, and every exec
answers one (60_exceptions.md R140, 10_state.md R21). -/

namespace Sys2Proof.Machine

/-- The update an instruction makes on the state before the Step. What a rule over all instructions needs of the operands stands
with the update. -/
inductive Effect (s : State) : Instr → State → Prop
  /-- A fatal fault, of an instruction that can take one (60_exceptions.md R133, R140). -/
  | fault {i : Instr} {kind : ErrorKind} {addr : Option Nat} (hi : canFault i = true) (hkind : kind.fatal = true)
      (haddr : addrFits kind addr) : Effect s i (s.raiseFault kind (some (encode i)) addr)
  /-- General registers, none but those the rule assigns. -/
  | registers {i : Instr} {v : Vector Byte 16}
      (hv : ∀ r, mayWrite i r = false → (s.advance.setV v).readV r = s.readV r) : Effect s i (s.advance.setV v)
  | skip {i : Instr} {w : Word} (hw : w = s.pc + 2 ∨ w = s.pc + 4)
      (hi : ∃ x y nn, i ∈ [.seI x nn, .sneI x nn, .seR x y, .sneR x y, .skp x, .sknp x]) : Effect s i (s.setPc w)
  | jump (nnn : Word) : Effect s (.jp nnn) (s.advance.setPc nnn)
  | jumpIndexed (nnn : Word) : Effect s (.jpV0 nnn) (s.advance.setPc (nnn + (s.readV 0).zext))
  | call (nnn : Word) (h : s.sp.val < 16) :
      Effect s (.call nnn) ((s.advance.setStack (s.stack.set s.sp.val (s.pc + 2)) ⟨s.sp.val + 1, by omega⟩).setPc nnn)
  | ret (h : 0 < s.sp.val) :
      Effect s .ret ((s.advance.setStack s.stack ⟨s.sp.val - 1, by omega⟩).setPc (s.stack[s.sp.val - 1]'(by omega)))
  | clear : Effect s .cls (s.advance.setFb Framebuffer.blank)
  | draw (x y : RegIdx) (n : Nat) (f : Framebuffer) (b : Byte) :
      Effect s (.drw x y n) ((s.advance.setFb f).writeV RegIdx.vF b)
  | index {i : Instr} (w : Word) (hi : ∃ nnn x, i = .ldIdx nnn ∨ i = .addIdx x ∨ i = .ldF x) : Effect s i (s.advance.setI w)
  | delay (x : RegIdx) (b : Byte) : Effect s (.ldDtVx x) (s.advance.setDt b)
  | sound (x : RegIdx) (b : Byte) : Effect s (.ldStVx x) (s.advance.setSt b)
  | memory {i : Instr} (a : Nat) (bs : List Byte) (hi : ∃ x, i = .ldB x ∨ i = .stRegs x) :
      Effect s i (s.advance.setMem (s.mem.writeBytes a bs))
  | random (x : RegIdx) (nn b : Byte) : Effect s (.rnd x nn) ((s.advance.writeV x b).setEnv s.env.afterDraw)
  | wait (x : RegIdx) : Effect s (.ldVxK x) (s.advance.setMode (.awaitingKey x))

/-- A skip instruction, whatever its condition came to. -/
theorem Effect.skipIf {i : Instr} (s : State) (c : Bool)
    (hi : ∃ x y nn, i ∈ [.seI x nn, .sneI x nn, .seR x y, .sneR x y, .skp x, .sknp x]) :
    Effect s i (s.advance.skipIf c) := by
  rw [State.advance_skipIf]
  cases c with
  | false => exact .skip (.inl rfl) hi
  | true => exact .skip (.inr rfl) hi

/-- A write of a register the instruction may write. -/
theorem Effect.writeV {i : Instr} (s : State) (x : RegIdx) (b : Byte) (hx : mayWrite i x = true := by simp [mayWrite]) :
    Effect s i (s.advance.writeV x b) :=
  .registers (v := s.v.set x.val b) fun r hr => State.readV_writeV_of_ne s.advance b fun h => by
    rw [h, hx] at hr
    cases hr

/-- A write of VF and then of V[x], where the instruction may write both (42_family_8_alu.md R90). -/
theorem Effect.writeFlagged {i : Instr} (s : State) (x : RegIdx) (flag : Bool) (b : Byte)
    (hx : mayWrite i x = true := by simp [mayWrite]) (hF : mayWrite i RegIdx.vF = true := by simp [mayWrite]) :
    Effect s i (s.advance.writeFlagged x flag b) :=
  .registers (v := (s.v.set 15 (flagByte flag)).set x.val b) fun r hr => by
    have hrx : r ≠ x := fun h => by rw [h, hx] at hr; cases hr
    have hrF : r ≠ RegIdx.vF := fun h => by rw [h, hF] at hr; cases hr
    have hread : (s.advance.writeFlagged x flag b).readV r = s.readV r := by
      rw [State.readV_writeFlagged, if_neg hrx, if_neg hrF, State.readV_advance]
    exact hread

/-- A block load writes V[0] to V[x] (46_family_F_timer_index_memory.md R123). -/
theorem Effect.loadRegisters (s : State) (x : RegIdx) :
    Effect s (.ldRegs x) (s.advance.setV (loadRegisters s.mem s.i.toNat x s.v)) :=
  .registers fun r hr => (getElem_loadRegisters s.mem s.i.toNat x r s.v).trans (if_neg (of_decide_eq_false hr))

theorem Effect.rangeFault {i : Instr} (s : State) (hi : canFault i = true) :
    Effect s i (s.raiseFault .addressOutOfRange (some (encode i)) (some (max s.i.toNat 4096))) :=
  .fault hi rfl ⟨_, rfl, le_max_right _ _⟩

theorem Effect.keyFault {i : Instr} (s : State) (x : RegIdx) (hi : canFault i = true) (hx : (s.readV x).toNat > 15) :
    Effect s i (s.raiseFault .keyIndexOutOfRange (some (encode i)) (some (s.readV x).toNat)) :=
  .fault hi rfl ⟨_, rfl, hx, Nat.le_of_lt_succ (s.readV x).isLt⟩

/-- Every instruction answers a next state in every state, by one of the effects (60_exceptions.md R140; log 10). -/
theorem exec_effect (i : Instr) (s : State) : ∃ t, exec i s = .next t ∧ Effect s i t := by
  cases i with
  | cls => exact ⟨_, exec_cls s, .clear⟩
  | ret =>
    rcases execRet_cases s with ⟨h, he⟩ | ⟨-, he⟩
    · exact ⟨_, he, .ret h⟩
    · exact ⟨_, he, .fault rfl rfl rfl⟩
  | jp nnn => exact ⟨_, exec_jp nnn s, .jump nnn⟩
  | call nnn =>
    rcases execCall_cases nnn s with ⟨h, he⟩ | ⟨-, he⟩
    · exact ⟨_, he, .call nnn h⟩
    · exact ⟨_, he, .fault rfl rfl rfl⟩
  | seI x nn => exact ⟨_, rfl, .skipIf s _ ⟨x, x, nn, by simp⟩⟩
  | sneI x nn => exact ⟨_, rfl, .skipIf s _ ⟨x, x, nn, by simp⟩⟩
  | seR x y => exact ⟨_, rfl, .skipIf s _ ⟨x, y, 0, by simp⟩⟩
  | sneR x y => exact ⟨_, rfl, .skipIf s _ ⟨x, y, 0, by simp⟩⟩
  | ldI x nn => exact ⟨_, exec_ldI x nn s, .writeV s x _⟩
  | addI x nn => exact ⟨_, exec_addI x nn s, .writeV s x _⟩
  | ldR x y => exact ⟨_, exec_ldR x y s, .writeV s x _⟩
  | or x y => exact ⟨_, exec_or x y s, .writeV s x _⟩
  | and x y => exact ⟨_, exec_and x y s, .writeV s x _⟩
  | xor x y => exact ⟨_, exec_xor x y s, .writeV s x _⟩
  | addR x y => exact ⟨_, rfl, .writeFlagged s x _ _⟩
  | sub x y => exact ⟨_, rfl, .writeFlagged s x _ _⟩
  | shr x y => exact ⟨_, rfl, .writeFlagged s x _ _⟩
  | subn x y => exact ⟨_, rfl, .writeFlagged s x _ _⟩
  | shl x y => exact ⟨_, rfl, .writeFlagged s x _ _⟩
  | ldIdx nnn => exact ⟨_, exec_ldIdx nnn s, .index _ ⟨nnn, 0, .inl rfl⟩⟩
  | jpV0 nnn => exact ⟨_, exec_jpV0 nnn s, .jumpIndexed nnn⟩
  | rnd x nn => exact ⟨_, rfl, .random x nn _⟩
  | drw x y n =>
    rcases execDrw_cases x y n s with ⟨-, drawn, -, he⟩ | ⟨-, he⟩
    · exact ⟨_, he, .draw x y n _ _⟩
    · exact ⟨_, he, .rangeFault s rfl⟩
  | skp x =>
    rcases execSkp_cases x s with ⟨_, he⟩ | ⟨h, he⟩
    · exact ⟨_, he, .skipIf s _ ⟨x, x, 0, by simp⟩⟩
    · exact ⟨_, he, .keyFault s x rfl h⟩
  | sknp x =>
    rcases execSknp_cases x s with ⟨_, he⟩ | ⟨h, he⟩
    · exact ⟨_, he, .skipIf s _ ⟨x, x, 0, by simp⟩⟩
    · exact ⟨_, he, .keyFault s x rfl h⟩
  | ldVxDt x => exact ⟨_, exec_ldVxDt x s, .writeV s x _⟩
  | ldVxK x => exact ⟨_, rfl, .wait x⟩
  | ldDtVx x => exact ⟨_, exec_ldDtVx x s, .delay x _⟩
  | ldStVx x => exact ⟨_, exec_ldStVx x s, .sound x _⟩
  | addIdx x => exact ⟨_, exec_addIdx x s, .index _ ⟨0, x, .inr (.inl rfl)⟩⟩
  | ldF x => exact ⟨_, exec_ldF x s, .index _ ⟨0, x, .inr (.inr rfl)⟩⟩
  | ldB x =>
    rcases execLdB_cases x s with ⟨-, he⟩ | ⟨-, he⟩
    · exact ⟨_, he, .memory _ _ ⟨x, .inl rfl⟩⟩
    · exact ⟨_, he, .rangeFault s rfl⟩
  | stRegs x =>
    rcases execStRegs_cases x s with ⟨-, he⟩ | ⟨-, he⟩
    · exact ⟨_, he, .memory _ _ ⟨x, .inr rfl⟩⟩
    · exact ⟨_, he, .rangeFault s rfl⟩
  | ldRegs x =>
    rcases execLdRegs_cases x s with ⟨-, he⟩ | ⟨-, he⟩
    · exact ⟨_, he, .loadRegisters s x⟩
    · exact ⟨_, he, .rangeFault s rfl⟩

theorem Effect.of_exec {i : Instr} {s t : State} (h : exec i s = .next t) : Effect s i t := by
  obtain ⟨u, hu, heffect⟩ := exec_effect i s
  rw [h] at hu
  cases hu
  exact heffect

/-- An instruction takes a fault or leaves FAULTINFO, and then MODE too unless it enters the key wait (60_exceptions.md R140). -/
theorem Effect.fault_or_mode {i : Instr} {s t : State} (h : Effect s i t) :
    (canFault i = true ∧ ∃ kind addr, kind.fatal = true ∧ addrFits kind addr ∧
      t = s.raiseFault kind (some (encode i)) addr) ∨
    (t.faultInfo = s.faultInfo ∧ (t.mode = s.mode ∨ ∃ x, i = .ldVxK x ∧ t.mode = .awaitingKey x)) := by
  cases h with
  | fault hi hkind haddr => exact .inl ⟨hi, _, _, hkind, haddr, rfl⟩
  | wait x => exact .inr ⟨rfl, .inr ⟨x, rfl, rfl⟩⟩
  | registers | skip | jump | jumpIndexed | call | ret | clear | draw | index | delay | sound | memory | random =>
    exact .inr ⟨rfl, .inl rfl⟩

end Sys2Proof.Machine
end

section
/-! SUPPORT. What a Step event can do, and one step of the machine (30_encoding.md R60, 60_exceptions.md R132, R134, R137, R146;
log 2). -/

namespace Sys2Proof.Machine

theorem cycle_of_not_running {s : State} (h : s.mode ≠ .running) : cycle s = .next s := by
  unfold cycle
  split
  next hm => exact absurd hm h
  next => rfl
  next => rfl

theorem cycle_of_fetch_error {s : State} {bad : Nat} (hm : s.mode = .running) (hf : s.fetch = .error bad) :
    cycle s = .next (s.raiseFault .addressOutOfRange none (some bad)) := by
  simp only [cycle, hm, hf]

theorem cycle_of_unknown {s : State} {op : Word} {r : Reject} (hm : s.mode = .running) (hf : s.fetch = .ok op)
    (hd : decode op = .error r) : cycle s = .next (s.reportUnknown op) := by
  simp only [cycle, hm, hf, hd]

theorem cycle_of_decode {s : State} {op : Word} {i : Instr} (hm : s.mode = .running) (hf : s.fetch = .ok op)
    (hd : decode op = .ok i) : cycle s = exec i s := by
  simp only [cycle, hm, hf, hd]

/-- The fetch answers exactly below the last address (20_memory.md R43). -/
theorem State.lt_of_fetch_ok {s : State} {op : Word} (h : s.fetch = .ok op) : s.pc.toNat < 0xFFF := by
  by_contra hpc
  rw [State.fetch_error_of_ge (by omega)] at h
  cases h

/-- What a Step event can do to the core. -/
inductive CycleEffect (s : State) : State → Prop
  | idle (hm : s.mode ≠ .running) : CycleEffect s s
  | badFetch (hm : s.mode = .running) (hpc : 0xFFF ≤ s.pc.toNat) :
      CycleEffect s (s.raiseFault .addressOutOfRange none (some (max s.pc.toNat 4096)))
  | unknown (op : Word) (hm : s.mode = .running) (hpc : s.pc.toNat < 0xFFF) : CycleEffect s (s.reportUnknown op)
  | ran {op : Word} {i : Instr} {t : State} (hm : s.mode = .running) (hf : s.fetch = .ok op) (hd : decode op = .ok i)
      (he : Effect s i t) : CycleEffect s t

theorem cycle_effect (s : State) : ∃ t, cycle s = .next t ∧ CycleEffect s t := by
  by_cases hm : s.mode = .running
  · match hf : s.fetch with
    | .error bad =>
      have hpc : 0xFFF ≤ s.pc.toNat := by
        by_contra hlt
        obtain ⟨op, hop⟩ := State.fetch_ok_of_lt (s := s) (by omega)
        rw [hop] at hf
        cases hf
      exact ⟨_, cycle_of_fetch_error hm (State.fetch_error_of_ge hpc), .badFetch hm hpc⟩
    | .ok op =>
      match hd : decode op with
      | .error r => exact ⟨_, cycle_of_unknown hm hf hd, .unknown op hm (State.lt_of_fetch_ok hf)⟩
      | .ok i =>
        obtain ⟨t, ht, he⟩ := exec_effect i s
        exact ⟨t, (cycle_of_decode hm hf hd).trans ht, .ran hm hf hd he⟩
  · exact ⟨s, cycle_of_not_running hm, .idle hm⟩

theorem CycleEffect.of_cycle {s t : State} (h : cycle s = .next t) : CycleEffect s t := by
  obtain ⟨u, hu, heffect⟩ := cycle_effect s
  rw [h] at hu
  cases hu
  exact heffect

theorem step_of_nil {s : State} (h : s.env.schedule = []) : step s = cycle s := by
  simp only [step, nextEvent, h]

theorem step_of_cons {s : State} {e : Event} {rest : List Event} (h : s.env.schedule = e :: rest) :
    step s = applyEvent e (s.setEnv { s.env with schedule := rest }) := by
  simp only [step, nextEvent, h]

/-- A step applies some event to the state with the schedule used up by it. -/
theorem step_eq_applyEvent (s : State) :
    ∃ e rest, step s = applyEvent e (s.setEnv { s.env with schedule := rest }) := by
  match h : s.env.schedule with
  | [] => exact ⟨.step, s.env.schedule, step_of_nil h⟩
  | e :: rest => exact ⟨e, rest, step_of_cons h⟩

theorem tick_cases (s : State) :
    (s.mode = .faulted ∧ tick s = s) ∨
    (s.mode ≠ .faulted ∧
      tick s = ((s.emit (.soundPulse (decide (s.st.toNat > 0)))).setDt (countDown s.dt)).setSt (countDown s.st)) := by
  match h : s.mode with
  | .faulted => exact .inl ⟨rfl, by simp only [tick, h]⟩
  | .running => exact .inr ⟨nofun, by simp only [tick, h]⟩
  | .awaitingKey x => exact .inr ⟨nofun, by simp only [tick, h]⟩

theorem keyUp_cases (k : KeyIdx) (s : State) :
    (s.mode = .faulted ∧ keyUp k s = s) ∨ (s.mode ≠ .faulted ∧ keyUp k s = s.setKey k false) := by
  match h : s.mode with
  | .faulted => exact .inl ⟨rfl, by simp only [keyUp, h]⟩
  | .running => exact .inr ⟨nofun, by simp only [keyUp, h]⟩
  | .awaitingKey x => exact .inr ⟨nofun, by simp only [keyUp, h]⟩

/-- A key press sets its key, and ends a key wait where the key was released before it (60_exceptions.md R144). -/
theorem keyDown_cases (k : KeyIdx) (s : State) :
    (s.mode = .faulted ∧ keyDown k s = s) ∨
    (s.mode ≠ .faulted ∧ (s.mode = .running ∨ s.key k = true) ∧ keyDown k s = s.setKey k true) ∨
    (∃ x, s.mode = .awaitingKey x ∧ s.key k = false ∧
      keyDown k s = ((s.setKey k true).writeV x (BitVec.ofNat 8 k.val)).setMode .running) := by
  match h : s.mode with
  | .faulted => exact .inl ⟨rfl, by simp only [keyDown, h]⟩
  | .running => exact .inr (.inl ⟨nofun, .inl rfl, by simp only [keyDown, h]⟩)
  | .awaitingKey x =>
    by_cases hk : s.key k = true
    · exact .inr (.inl ⟨nofun, .inr hk, by simp only [keyDown, h, if_pos hk]⟩)
    · exact .inr (.inr ⟨x, rfl, Bool.eq_false_of_not_eq_true hk, by simp only [keyDown, h, if_neg hk]⟩)

/-- Reset takes an image that fits and rejects one that does not (70_reset_and_hazards.md R160, R161). -/
theorem resetWith_cases (rom : List Byte) (e : Environment) :
    (rom.length ≤ 3584 ∧ State.resetWith rom e = (State.reset.setMem (bootMemory e.font rom)).setEnv e) ∨
    (3584 < rom.length ∧ State.resetWith rom e =
      ((State.reset.setMem (bootMemory e.font [])).raiseFault .romTooLarge none (some rom.length)).setEnv e) := by
  by_cases h : rom.length ≤ 3584
  · exact .inl ⟨h, if_pos h⟩
  · exact .inr ⟨by omega, if_neg h⟩

/-- What every event keeps, every step keeps. -/
theorem step_keeps {P : State → Prop} (hschedule : ∀ s es, P s → P (s.setEnv { s.env with schedule := es }))
    (hcycle : ∀ s t, P s → CycleEffect s t → P t) (htick : ∀ s, P s → P (tick s))
    (hdown : ∀ k s, P s → P (keyDown k s)) (hup : ∀ k s, P s → P (keyUp k s))
    (hreset : ∀ rom s, P s → P (State.resetWith rom s.env)) {s t : State} (hs : P s) (hstep : step s = .next t) : P t := by
  obtain ⟨e, rest, heq⟩ := step_eq_applyEvent s
  have hs' := hschedule s rest hs
  rw [heq] at hstep
  cases e with
  | step => exact hcycle _ t hs' (.of_cycle hstep)
  | tick => cases hstep; exact htick _ hs'
  | keyDown k => cases hstep; exact hdown k _ hs'
  | keyUp k => cases hstep; exact hup k _ hs'
  | reset rom => cases hstep; exact hreset rom _ hs'

end Sys2Proof.Machine
end

section
/-! The invariants of a run: memory in its canonical form, the ranges of PC and the stack, the fault record, and the parameter
FONT (10_state.md sections 3, 10 and 14, 20_memory.md section 1, 60_exceptions.md sections 2 to 4). -/

namespace Sys2Proof.Machine

/-! ## Memory -/

theorem MemoryCanonical.of_mem_eq {s t : State} (h : MemoryCanonical s) (hmem : t.mem = s.mem) : MemoryCanonical t := by
  rwa [MemoryCanonical, hmem]

theorem Effect.keeps_memoryCanonical {i : Instr} {s t : State} (h : Effect s i t) (hs : MemoryCanonical s) :
    MemoryCanonical t := by
  cases h with
  | memory a bs => exact Memory.wf_writeBytes bs s.mem a hs
  | fault | registers | skip | jump | jumpIndexed | call | ret | clear | draw | index | delay | sound | random | wait =>
    exact hs.of_mem_eq rfl

theorem CycleEffect.keeps_memoryCanonical {s t : State} (h : CycleEffect s t) (hs : MemoryCanonical s) :
    MemoryCanonical t := by
  cases h with
  | ran _ _ _ he => exact he.keeps_memoryCanonical hs
  | idle | badFetch | unknown => exact hs.of_mem_eq rfl

theorem tick_mem (s : State) : (tick s).mem = s.mem := by
  rcases tick_cases s with ⟨-, h⟩ | ⟨-, h⟩ <;> rw [h]
  rfl

theorem keyDown_mem (k : KeyIdx) (s : State) : (keyDown k s).mem = s.mem := by
  rcases keyDown_cases k s with ⟨-, h⟩ | ⟨-, -, h⟩ | ⟨x, -, -, h⟩ <;> rw [h] <;> rfl

theorem keyUp_mem (k : KeyIdx) (s : State) : (keyUp k s).mem = s.mem := by
  rcases keyUp_cases k s with ⟨-, h⟩ | ⟨-, h⟩ <;> rw [h]
  rfl

theorem memoryCanonical_resetWith (rom : List Byte) (e : Environment) : MemoryCanonical (State.resetWith rom e) := by
  rcases resetWith_cases rom e with ⟨-, h⟩ | ⟨-, h⟩ <;> rw [h] <;> exact wf_bootMemory e.font _

/-- Settles O47: memory changes by storing bytes or by Reset, and both keep the canonical form. -/
theorem stepsKeepMemoryCanonical : Obligations.StepsKeepMemoryCanonical := fun _ _ hs hstep =>
  step_keeps (P := MemoryCanonical) (fun _ _ h => h) (fun _ _ h he => he.keeps_memoryCanonical h)
    (fun s h => h.of_mem_eq (tick_mem s)) (fun k s h => h.of_mem_eq (keyDown_mem k s))
    (fun k s h => h.of_mem_eq (keyUp_mem k s)) (fun rom s _ => memoryCanonical_resetWith rom s.env) hs hstep

/-! ## PC and the stack -/

/-- Where the stack is kept, only the new PC is in question. -/
theorem ControlInRange.of_pc {s t : State} (h : ControlInRange s) (hstack : t.stack = s.stack) (hsp : t.sp = s.sp)
    (hpc : t.pc.toNat ≤ 0x10FE) : ControlInRange t := by
  refine ⟨hpc, fun k hk => ?_⟩
  rw [State.stackAt, hstack]
  exact h.2 k (hsp ▸ hk)

theorem ControlInRange.of_eq {s t : State} (h : ControlInRange s) (hstack : t.stack = s.stack) (hsp : t.sp = s.sp)
    (hpc : t.pc = s.pc) : ControlInRange t :=
  h.of_pc hstack hsp (by rw [hpc]; exact h.1)

/-- A stack with a pushed cell holds the pushed word there and the old cells elsewhere (10_state.md R25). -/
theorem stackAt_of_push {s t : State} {w : Word} (h : s.sp.val < 16) (ht : t.stack = s.stack.set s.sp.val w) (k : Fin 16) :
    t.stackAt k = if k.val = s.sp.val then w else s.stackAt k := by
  rw [State.stackAt, State.stackAt]
  simp only [ht, Vector.getElem_set]
  exact if_congr eq_comm rfl rfl

/-- An instruction fetched keeps the ranges: a return address is at most 0x1000, and the longest jump ends at 0xFFF + 0xFF. -/
theorem Effect.keeps_controlInRange {i : Instr} {s t : State} (h : Effect s i t) (hwf : i.wellFormed = true)
    (hpc : s.pc.toNat < 0xFFF) (hs : ControlInRange s) : ControlInRange t := by
  have hnext := toNat_pc_add_two hpc
  cases h with
  | fault => exact hs.of_eq rfl rfl rfl
  | skip hw =>
    have hskip := toNat_pc_add_four hpc
    refine hs.of_pc rfl rfl ?_
    rw [State.setPc_pc]
    rcases hw with rfl | rfl <;> omega
  | jump nnn =>
    have hnnn : nnn.toNat < 0x1000 := of_decide_eq_true hwf
    exact hs.of_pc rfl rfl (by rw [State.setPc_pc]; omega)
  | jumpIndexed nnn =>
    have hnnn : nnn.toNat < 0x1000 := of_decide_eq_true hwf
    have hsum := toNat_address_add_byte nnn (s.readV 0) hnnn
    have hbyte := (s.readV 0).isLt
    exact hs.of_pc rfl rfl (hsum.trans_le (by omega))
  | call nnn hsp =>
    have hnnn : nnn.toNat < 0x1000 := of_decide_eq_true hwf
    refine ⟨Nat.le_trans (Nat.le_of_lt hnnn) (by decide), fun k hk => ?_⟩
    rw [stackAt_of_push (s := s) (w := s.pc + 2) hsp rfl]
    split
    · omega
    · exact hs.2 k (by change k.val < s.sp.val + 1 at hk; omega)
  | ret hsp =>
    have hcell := hs.2 ⟨s.sp.val - 1, by omega⟩ (Nat.sub_lt hsp Nat.one_pos)
    exact ⟨Nat.le_trans hcell.2 (by decide), fun k hk => hs.2 k (Nat.lt_of_lt_of_le hk (Nat.sub_le _ _))⟩
  | registers | clear | draw | index | delay | sound | memory | random | wait =>
    exact hs.of_pc rfl rfl (hnext.trans_le (by omega))

theorem CycleEffect.keeps_controlInRange {s t : State} (h : CycleEffect s t) (hs : ControlInRange s) :
    ControlInRange t := by
  cases h with
  | idle => exact hs
  | badFetch => exact hs.of_eq rfl rfl rfl
  | unknown op _ hpc => exact hs.of_pc rfl rfl ((toNat_pc_add_two hpc).trans_le (by omega))
  | ran _ hf hd he => exact he.keeps_controlInRange (encodeInvertsDecode _ _ hd).2 (State.lt_of_fetch_ok hf) hs

theorem controlInRange_tick (s : State) (h : ControlInRange s) : ControlInRange (tick s) := by
  rcases tick_cases s with ⟨-, heq⟩ | ⟨-, heq⟩ <;> rw [heq] <;> exact h

theorem controlInRange_keyDown (k : KeyIdx) (s : State) (h : ControlInRange s) : ControlInRange (keyDown k s) := by
  rcases keyDown_cases k s with ⟨-, heq⟩ | ⟨-, -, heq⟩ | ⟨x, -, -, heq⟩ <;> rw [heq] <;> exact h

theorem controlInRange_keyUp (k : KeyIdx) (s : State) (h : ControlInRange s) : ControlInRange (keyUp k s) := by
  rcases keyUp_cases k s with ⟨-, heq⟩ | ⟨-, heq⟩ <;> rw [heq] <;> exact h

theorem controlInRange_reset : ControlInRange State.reset := ⟨by decide, fun _ hk => absurd hk (Nat.not_lt_zero _)⟩

theorem controlInRange_resetWith (rom : List Byte) (e : Environment) : ControlInRange (State.resetWith rom e) := by
  rcases resetWith_cases rom e with ⟨-, h⟩ | ⟨-, h⟩ <;> rw [h] <;> exact controlInRange_reset

/-- Settles O48: only an instruction that was fetched and is well-formed moves PC, pushes or pops. -/
theorem stepsKeepControlInRange : Obligations.StepsKeepControlInRange := fun _ _ hs hstep =>
  step_keeps (P := ControlInRange) (fun _ _ h => h) (fun _ _ h he => he.keeps_controlInRange h) controlInRange_tick
    controlInRange_keyDown controlInRange_keyUp (fun rom s _ => controlInRange_resetWith rom s.env) hs hstep

/-! ## The fault record -/

theorem faultRecordFits_raiseFault {kind : ErrorKind} {addr : Option Nat} (s : State) (op : Option Word)
    (hkind : kind.fatal = true) (haddr : addrFits kind addr) : FaultRecordFits (s.raiseFault kind op addr) :=
  ⟨⟨nofun, fun _ => rfl⟩, fun r hr => by cases hr; exact ⟨hkind, rfl, haddr⟩⟩

/-- A state that is not Faulted and holds no record fits. -/
theorem faultRecordFits_of_none {s : State} (hm : s.mode ≠ .faulted) (hf : s.faultInfo = none) : FaultRecordFits s :=
  ⟨⟨fun h => absurd h hm, fun h => absurd hf h⟩, fun r hr => by rw [hf] at hr; cases hr⟩

theorem FaultRecordFits.faultInfo_eq_none {s : State} (h : FaultRecordFits s) (hm : s.mode ≠ .faulted) :
    s.faultInfo = none := by
  by_contra hne
  exact hm (h.1.mpr hne)

theorem Effect.keeps_faultRecordFits {i : Instr} {s t : State} (h : Effect s i t) (hm : s.mode = .running)
    (hs : FaultRecordFits s) : FaultRecordFits t := by
  rcases h.fault_or_mode with ⟨-, kind, addr, hkind, haddr, rfl⟩ | ⟨hinfo, hmode⟩
  · exact faultRecordFits_raiseFault s _ hkind haddr
  · refine faultRecordFits_of_none ?_ (hinfo.trans (hs.faultInfo_eq_none (hm ▸ nofun)))
    rcases hmode with hmode | ⟨x, -, hmode⟩
    · exact hmode ▸ hm ▸ nofun
    · exact hmode ▸ nofun

theorem CycleEffect.keeps_faultRecordFits {s t : State} (h : CycleEffect s t) (hs : FaultRecordFits s) :
    FaultRecordFits t := by
  cases h with
  | idle => exact hs
  | badFetch => exact faultRecordFits_raiseFault s _ rfl ⟨_, rfl, le_max_right _ _⟩
  | unknown op hm =>
    exact faultRecordFits_of_none (s := s.reportUnknown op) (show s.mode ≠ .faulted from hm ▸ nofun)
      (hs.faultInfo_eq_none (hm ▸ nofun))
  | ran hm _ _ he => exact he.keeps_faultRecordFits hm hs

theorem faultRecordFits_tick (s : State) (h : FaultRecordFits s) : FaultRecordFits (tick s) := by
  rcases tick_cases s with ⟨-, heq⟩ | ⟨-, heq⟩ <;> rw [heq] <;> exact h

theorem faultRecordFits_keyDown (k : KeyIdx) (s : State) (h : FaultRecordFits s) : FaultRecordFits (keyDown k s) := by
  rcases keyDown_cases k s with ⟨-, heq⟩ | ⟨-, -, heq⟩ | ⟨x, hm, -, heq⟩ <;> rw [heq]
  · exact h
  · exact h
  · exact faultRecordFits_of_none nofun (h.faultInfo_eq_none (hm ▸ nofun))

theorem faultRecordFits_keyUp (k : KeyIdx) (s : State) (h : FaultRecordFits s) : FaultRecordFits (keyUp k s) := by
  rcases keyUp_cases k s with ⟨-, heq⟩ | ⟨-, heq⟩ <;> rw [heq] <;> exact h

theorem faultRecordFits_resetWith (rom : List Byte) (e : Environment) : FaultRecordFits (State.resetWith rom e) := by
  rcases resetWith_cases rom e with ⟨-, h⟩ | ⟨hlong, h⟩ <;> rw [h]
  · exact faultRecordFits_of_none nofun rfl
  · exact faultRecordFits_raiseFault (kind := .romTooLarge) (State.reset.setMem (bootMemory e.font [])) none rfl
      ⟨_, rfl, hlong⟩

/-- Settles O49: a record is written by taking a fault, which sets MODE with it, and no event before Reset parts the two. -/
theorem stepsKeepTheFaultRecordFitting : Obligations.StepsKeepTheFaultRecordFitting := fun _ _ hs hstep =>
  step_keeps (P := FaultRecordFits) (fun _ _ h => h) (fun _ _ h he => he.keeps_faultRecordFits h) faultRecordFits_tick
    faultRecordFits_keyDown faultRecordFits_keyUp (fun rom s _ => faultRecordFits_resetWith rom s.env) hs hstep

/-- Settles O50: the state after reset lists no byte, uses no stack cell and holds no record. -/
theorem resetStateMeetsTheInvariants : Obligations.ResetStateMeetsTheInvariants := by
  refine ⟨Memory.wf_nil, controlInRange_reset, faultRecordFits_of_none nofun rfl, ?_⟩
  have hfont : Environment.initial.font = defaultFont := rfl
  rcases resetWith_cases [] Environment.initial with ⟨-, h⟩ | ⟨hlong, -⟩
  · rw [h, hfont, bootMemory, writeBytes_defaultFont]
    rfl
  · exact absurd hlong (Nat.not_lt.mpr (Nat.zero_le _))

/-! ## The parameter FONT -/

theorem Effect.keeps_font {i : Instr} {s t : State} (h : Effect s i t) : t.env.font = s.env.font := by
  cases h with
  | fault | registers | skip | jump | jumpIndexed | call | ret | clear | draw | index | delay | sound | memory | random
  | wait => rfl

theorem CycleEffect.keeps_font {s t : State} (h : CycleEffect s t) : t.env.font = s.env.font := by
  cases h with
  | ran _ _ _ he => exact he.keeps_font
  | idle | badFetch | unknown => rfl

theorem tick_font (s : State) : (tick s).env.font = s.env.font := by
  rcases tick_cases s with ⟨-, h⟩ | ⟨-, h⟩ <;> rw [h]
  rfl

theorem keyDown_env (k : KeyIdx) (s : State) : (keyDown k s).env = s.env := by
  rcases keyDown_cases k s with ⟨-, h⟩ | ⟨-, -, h⟩ | ⟨x, -, -, h⟩ <;> rw [h] <;> rfl

theorem keyUp_env (k : KeyIdx) (s : State) : (keyUp k s).env = s.env := by
  rcases keyUp_cases k s with ⟨-, h⟩ | ⟨-, h⟩ <;> rw [h]
  rfl

theorem resetWith_env (rom : List Byte) (e : Environment) : (State.resetWith rom e).env = e := by
  rcases resetWith_cases rom e with ⟨-, h⟩ | ⟨-, h⟩ <;> rw [h] <;> rfl

/-- Settles O56: the environment's part changes by a draw, a record received and the schedule, none of which writes FONT. -/
theorem stepsKeepTheFontParameter : Obligations.StepsKeepTheFontParameter := fun s _ hstep =>
  step_keeps (P := fun t => t.env.font = s.env.font) (fun _ _ h => h) (fun _ _ h he => he.keeps_font.trans h)
    (fun t h => (tick_font t).trans h) (fun k t h => by rwa [keyDown_env]) (fun k t h => by rwa [keyUp_env])
    (fun rom t h => by rwa [resetWith_env]) rfl hstep

end Sys2Proof.Machine
end

section
/-! The rules over all instructions: which registers and which parts each may change, and which can fault (10_state.md section 2,
60_exceptions.md sections 4 and 6). -/

namespace Sys2Proof.Machine

/-! ## Part by part -/

theorem Effect.registers_frame {i : Instr} {s t : State} (h : Effect s i t) {r : RegIdx} (hr : mayWrite i r = false) :
    t.readV r = s.readV r := by
  cases h with
  | registers hv => exact hv r hr
  | draw x y n f b => exact State.readV_writeV_of_ne (s.advance.setFb f) b (ne_of_beq_false hr)
  | random x nn b => exact State.readV_writeV_of_ne s.advance b (ne_of_beq_false hr)
  | fault | skip | jump | jumpIndexed | call | ret | clear | index | delay | sound | memory | wait => rfl

theorem Effect.screen_frame {i : Instr} {s t : State} (h : Effect s i t) :
    Same .screen s t ∨ i = .cls ∨ ∃ x y n, i = .drw x y n := by
  cases h with
  | clear => exact .inr (.inl rfl)
  | draw x y n => exact .inr (.inr ⟨x, y, n, rfl⟩)
  | fault | registers | skip | jump | jumpIndexed | call | ret | index | delay | sound | memory | random | wait =>
    exact .inl fun _ _ => rfl

theorem Effect.memory_frame {i : Instr} {s t : State} (h : Effect s i t) :
    Same .memory s t ∨ ∃ x, i = .ldB x ∨ i = .stRegs x := by
  cases h with
  | memory a bs hi => exact .inr hi
  | fault | registers | skip | jump | jumpIndexed | call | ret | clear | draw | index | delay | sound | random | wait =>
    exact .inl fun _ => rfl

theorem Effect.stack_frame {i : Instr} {s t : State} (h : Effect s i t) :
    Same .stack s t ∨ i = .ret ∨ ∃ nnn, i = .call nnn := by
  cases h with
  | ret => exact .inr (.inl rfl)
  | call nnn => exact .inr (.inr ⟨nnn, rfl⟩)
  | fault | registers | skip | jump | jumpIndexed | clear | draw | index | delay | sound | memory | random | wait =>
    exact .inl ⟨rfl, fun _ => rfl⟩

theorem Effect.index_frame {i : Instr} {s t : State} (h : Effect s i t) :
    Same .index s t ∨ ∃ nnn x, i = .ldIdx nnn ∨ i = .addIdx x ∨ i = .ldF x := by
  cases h with
  | index w hi => exact .inr hi
  | fault | registers | skip | jump | jumpIndexed | call | ret | clear | draw | delay | sound | memory | random | wait =>
    exact .inl rfl

theorem Effect.delay_frame {i : Instr} {s t : State} (h : Effect s i t) : Same .delay s t ∨ ∃ x, i = .ldDtVx x := by
  cases h with
  | delay x => exact .inr ⟨x, rfl⟩
  | fault | registers | skip | jump | jumpIndexed | call | ret | clear | draw | index | sound | memory | random | wait =>
    exact .inl rfl

theorem Effect.sound_frame {i : Instr} {s t : State} (h : Effect s i t) : Same .sound s t ∨ ∃ x, i = .ldStVx x := by
  cases h with
  | sound x => exact .inr ⟨x, rfl⟩
  | fault | registers | skip | jump | jumpIndexed | call | ret | clear | draw | index | delay | memory | random | wait =>
    exact .inl rfl

theorem Effect.environment_frame {i : Instr} {s t : State} (h : Effect s i t) :
    Same .environment s t ∨ ∃ x nn, i = .rnd x nn := by
  cases h with
  | random x nn => exact .inr ⟨x, nn, rfl⟩
  | fault | registers | skip | jump | jumpIndexed | call | ret | clear | draw | index | delay | sound | memory | wait =>
    exact .inl rfl

theorem Effect.keys_frame {i : Instr} {s t : State} (h : Effect s i t) : Same .keys s t := by
  cases h with
  | fault | registers | skip | jump | jumpIndexed | call | ret | clear | draw | index | delay | sound | memory | random | wait =>
    exact fun _ => rfl

theorem Effect.mode_frame {i : Instr} {s t : State} (h : Effect s i t) :
    Same .mode s t ∨ (canFault i = true ∧ t.mode = .faulted) ∨ ∃ x, i = .ldVxK x ∧ t.mode = .awaitingKey x := by
  rcases h.fault_or_mode with ⟨hi, _, _, -, -, rfl⟩ | ⟨-, hmode | hwait⟩
  · exact .inr (.inl ⟨hi, rfl⟩)
  · exact .inl hmode
  · exact .inr (.inr hwait)

theorem Effect.fault_frame {i : Instr} {s t : State} (h : Effect s i t) :
    Same .fault s t ∨ (canFault i = true ∧ t.mode = .faulted) := by
  rcases h.fault_or_mode with ⟨hi, _, _, -, -, rfl⟩ | ⟨hinfo, -⟩
  · exact .inr ⟨hi, rfl⟩
  · exact .inl hinfo

/-- Where PC ends: at pc0 + 2 but for a fault taken, a return, a jump or call, and a skip that skips (10_state.md section 3). -/
theorem Effect.pc_cases {i : Instr} {s t : State} (h : Effect s i t) :
    t.pc = s.pc + 2 ∨ (canFault i = true ∧ t.mode = .faulted ∧ t.pc = s.pc) ∨ i = .ret ∨
      (∃ nnn, i = .jp nnn ∨ i = .call nnn ∨ i = .jpV0 nnn) ∨
      (t.pc = s.pc + 4 ∧ ∃ x y nn, i ∈ [.seI x nn, .sneI x nn, .seR x y, .sneR x y, .skp x, .sknp x]) := by
  cases h with
  | fault hi => exact .inr (.inl ⟨hi, rfl, rfl⟩)
  | ret => exact .inr (.inr (.inl rfl))
  | jump nnn => exact .inr (.inr (.inr (.inl ⟨nnn, .inl rfl⟩)))
  | call nnn => exact .inr (.inr (.inr (.inl ⟨nnn, .inr (.inl rfl)⟩)))
  | jumpIndexed nnn => exact .inr (.inr (.inr (.inl ⟨nnn, .inr (.inr rfl)⟩)))
  | skip hw hi =>
    rcases hw with hw | hw
    · exact .inl hw
    · exact .inr (.inr (.inr (.inr ⟨hw, hi⟩)))
  | registers | clear | draw | index | delay | sound | memory | random | wait => exact .inl rfl

/-- Settles O51: registers are written by an effect that carries what the rule assigns, by a draw, or by a random byte. -/
theorem onlyAssignedRegistersChange : Obligations.OnlyAssignedRegistersChange := fun _ _ _ _ hexec hr =>
  (Effect.of_exec hexec).registers_frame hr

/-- Settles O52: the effects of the instructions, read part by part. -/
theorem onlyTheNamedInstructionsWriteEachPart : Obligations.OnlyTheNamedInstructionsWriteEachPart := fun _ _ _ hexec =>
  have h := Effect.of_exec hexec
  ⟨h.screen_frame, h.memory_frame, h.stack_frame, h.index_frame, h.delay_frame, h.sound_frame, h.environment_frame,
    h.keys_frame, h.mode_frame, h.fault_frame, h.pc_cases⟩

/-! ## Faults -/

/-- Settles O43: an effect that is no fault leaves FAULTINFO, and leaves MODE or enters the key wait. -/
theorem onlyEightInstructionsCanFault : Obligations.OnlyEightInstructionsCanFault := fun _ _ _ hexec hi => by
  rcases (Effect.of_exec hexec).fault_or_mode with ⟨hfault, -⟩ | hkept
  · rw [hi] at hfault
    cases hfault
  · exact hkept

/-- Settles O41: from Running, Faulted is reached by a fault of the fetch or of the instruction fetched, whose word the encoder
gives back. -/
theorem fatalFaultsArePrecise : Obligations.FatalFaultsArePrecise := fun s t hrunning hcycle hfaulted => by
  cases CycleEffect.of_cycle hcycle with
  | idle hm => exact absurd hrunning hm
  | badFetch _ hpc => exact ⟨_, rfl, rfl, rfl, ⟨_, rfl, le_max_right _ _⟩, .inl ⟨rfl, hpc⟩⟩
  | unknown op hm => exact absurd (hm.symm.trans hfaulted) nofun
  | ran hm hf hd he =>
    rcases he.fault_or_mode with ⟨-, kind, addr, hkind, haddr, rfl⟩ | ⟨-, hmode | ⟨x, -, hmode⟩⟩
    · exact ⟨_, rfl, hkind, rfl, haddr, .inr ⟨_, hf, congrArg some (encodeInvertsDecode _ _ hd).1⟩⟩
    · exact absurd (hm.symm.trans (hmode.symm.trans hfaulted)) nofun
    · exact absurd (hmode.symm.trans hfaulted) nofun

theorem applyEvent_of_faulted {s : State} {e : Event} (hm : s.mode = .faulted) (he : ∀ rom, e ≠ .reset rom) :
    applyEvent e s = .next s := by
  cases e with
  | step => exact cycle_of_not_running (hm ▸ nofun)
  | tick => simp only [applyEvent, tick, hm]
  | keyDown k => simp only [applyEvent, keyDown, hm]
  | keyUp k => simp only [applyEvent, keyUp, hm]
  | reset rom => exact absurd rfl (he rom)

/-- While Faulted a step that is no Reset only takes its event off the schedule (decision D6). -/
theorem step_of_faulted {s : State} (hm : s.mode = .faulted) (hs : ∀ rom, Event.reset rom ∉ s.env.schedule) :
    step s = .next (s.setEnv { s.env with schedule := s.env.schedule.tail }) := by
  match h : s.env.schedule with
  | [] =>
    rw [step_of_nil h, cycle_of_not_running (hm ▸ nofun), List.tail_nil, ← h]
    rfl
  | e :: rest =>
    rw [step_of_cons h]
    refine applyEvent_of_faulted hm fun rom he => hs rom ?_
    rw [h, he]
    exact List.mem_cons_self

theorem run_succ_of_next {n : Nat} {s t : State} (h : step s = .next t) :
    Host.Core.run Sys2Proof.core (n + 1) s = Host.Core.run Sys2Proof.core n t := by
  have hcore : Sys2Proof.core.step s = .next t := h
  simp only [Host.Core.run, hcore]

/-- Settles O42: each step of the run takes one event off the schedule. -/
theorem faultedIsTerminal : Obligations.FaultedIsTerminal := fun n => by
  induction n with
  | zero => exact fun s _ _ => rfl
  | succ n ih =>
    intro s hm hs
    rw [run_succ_of_next (step_of_faulted hm hs),
      ih (s.setEnv { s.env with schedule := s.env.schedule.tail }) hm fun rom h => hs rom (List.mem_of_mem_tail h),
      State.setEnv_env, List.drop_tail]
    rfl

/-- Settles O44: every instruction answers by an effect, and every event applies. -/
theorem everyStepAnswersANextState : Obligations.EveryStepAnswersANextState := by
  refine ⟨fun i s => ?_, fun s => ?_⟩
  · obtain ⟨t, ht, -⟩ := exec_effect i s
    exact ⟨t, ht⟩
  · obtain ⟨e, rest, heq⟩ := step_eq_applyEvent s
    rw [heq]
    cases e with
    | step =>
      obtain ⟨t, ht, -⟩ := cycle_effect (s.setEnv { s.env with schedule := rest })
      exact ⟨t, ht⟩
    | tick | keyDown | keyUp | reset => exact ⟨_, rfl⟩

end Sys2Proof.Machine
end

section
/-! The obligations of the instruction cycle (30_encoding.md section 1, 20_memory.md section 2, 60_exceptions.md sections 3, 5
and 10; logs 2 and 8). -/

namespace Sys2Proof.Machine

theorem State.fetch_of_lt {s : State} (h : s.pc.toNat + 1 < 4096) :
    s.fetch = .ok (opcodeOf (s.mem.read s.pc.toNat) (s.mem.read (s.pc.toNat + 1))) := by
  rw [State.fetch_eq, if_pos h]

/-- The word of two bytes as the number big-endian order gives (20_memory.md R43). -/
theorem opcodeOf_eq_ofNat (high low : Byte) : opcodeOf high low = BitVec.ofNat 16 (high.toNat * 256 + low.toNat) :=
  BitVec.eq_of_toNat_eq (by
    have hhigh := high.isLt
    have hlow := low.isLt
    rw [opcodeOf_toNat, BitVec.toNat_ofNat, Nat.mod_eq_of_lt (by omega)])

/-- Settles O6: the fetch reads the two bytes, and neither the fetch nor MODE depends on the schedule. -/
theorem stepRunsTheDecodedInstruction : Obligations.StepRunsTheDecodedInstruction := fun s i hm hpc hd => by
  have hf := State.fetch_of_lt hpc
  rw [← opcodeOf_eq_ofNat] at hd
  have hcycle : ∀ e, cycle (s.setEnv e) = exec i (s.setEnv e) := fun e => cycle_of_decode (s := s.setEnv e) hm hf hd
  exact ⟨hcycle s.env, fun hnil => (step_of_nil hnil).trans (hcycle s.env), fun rest hcons =>
    (step_of_cons hcons).trans (hcycle _)⟩

/-- Settles O7: the step applies the head of the schedule to the state with the rest. -/
theorem stepTakesTheNextEvent : Obligations.StepTakesTheNextEvent := fun _ =>
  ⟨step_of_nil, fun _ => step_of_cons, fun _ => step_of_cons, fun _ _ => step_of_cons, fun _ _ => step_of_cons,
    fun _ _ => step_of_cons⟩

/-- Settles O8: only a Running core fetches. -/
theorem cycleIsNoOpUnlessRunning : Obligations.CycleIsNoOpUnlessRunning := fun _ hm =>
  ⟨cycle_of_not_running hm, fun hnil => (step_of_nil hnil).trans (cycle_of_not_running hm)⟩

/-- Settles O9: the report is one record received and the PC advance. -/
theorem unknownWordReportsAndGoesOn : Obligations.UnknownWordReportsAndGoesOn := fun s hm op hf hd =>
  ⟨s.reportUnknown op, cycle_of_unknown hm hf hd, rfl, rfl, rfl,
    (sameExcept_setEnv s (s.env.receive (.diag op s.pc))).trans (sameExcept_advance _)⟩

/-- Settles O10: the fetch answers below 0xFFF and offends with the first address beyond memory from there on. -/
theorem fetchIsBigEndianAndBounded : Obligations.FetchIsBigEndianAndBounded := fun s => by
  refine ⟨fun h => ⟨_, State.fetch_of_lt (by omega), opcodeOf_toNat _ _⟩, fun h => ?_, fun h => ?_, fun hm h => ?_⟩
  · rw [State.fetch_error_of_ge (by omega), h]
    rfl
  · rw [State.fetch_error_of_ge (by omega), Nat.max_eq_left h]
  · exact ⟨_, cycle_of_fetch_error hm (State.fetch_error_of_ge h), faultTaken_raiseFault _ _ _ _⟩

theorem State.fetchPc_toNat_lt (s : State) : s.fetchPc.toNat + 1 < 4096 := by
  unfold State.fetchPc
  split
  next h => exact h
  next => decide

/-- The word placed is the one fetched: its two bytes are stored where the fetch reads them (log 8). -/
theorem State.fetch_withFetchWord (s : State) (w : Nat) : (s.withFetchWord 16 w).fetch = .ok (BitVec.ofNat 16 w) := by
  have hpc := s.fetchPc_toNat_lt
  have hword : tableOpcode 16 w = BitVec.ofNat 16 w := BitVec.eq_of_toNat_eq (by simp [tableOpcode])
  have hread : ∀ a, (s.withFetchWord 16 w).mem.read a = _ := fun a =>
    Memory.read_writeBytes [highByte (tableOpcode 16 w), lowByte (tableOpcode 16 w)] s.mem s.fetchPc.toNat a
      (by simp only [List.length_cons, List.length_nil]; omega)
  rw [State.fetch_of_lt (s := s.withFetchWord 16 w) hpc, hread, hread]
  simp [State.withFetchWord, opcodeOf_bytes, hword]

/-- Settles O11: the placed word is fetched, and the step it is fetched by is the event put first in the schedule. -/
theorem withFetchWordRunsThatWord : Obligations.WithFetchWordRunsThatWord := fun s w i hd => by
  have hcycle : ∀ e, cycle ((s.withFetchWord 16 w).setEnv e) = exec i ((s.withFetchWord 16 w).setEnv e) := fun e =>
    cycle_of_decode (s := (s.withFetchWord 16 w).setEnv e) rfl (s.fetch_withFetchWord w) hd
  match h : s.env.schedule with
  | [] =>
    have hnil : (s.withFetchWord 16 w).env.schedule = [] := congrArg scheduleStep h
    have henv : (s.withFetchWord 16 w).env = s.env := by
      change { s.env with schedule := scheduleStep s.env.schedule } = s.env
      rw [h, scheduleStep, ← h]
    rw [step_of_nil hnil, ← henv]
    exact hcycle _
  | e :: rest =>
    have hcons : (s.withFetchWord 16 w).env.schedule = .step :: s.env.schedule := by
      change scheduleStep s.env.schedule = _
      rw [h, scheduleStep]
    exact (step_of_cons hcons).trans (hcycle s.env)

end Sys2Proof.Machine
end

section
/-! SUPPORT. The eight instructions that can fault, each under the condition that it faults and under the one that it does not
(60_exceptions.md R140). -/

namespace Sys2Proof.Machine

variable {s : State} {x y : RegIdx}

theorem exec_ret_of_pos (h : 0 < s.sp.val) : exec .ret s =
    .next ((s.advance.setStack s.stack ⟨s.sp.val - 1, by omega⟩).setPc (s.stack[s.sp.val - 1]'(by omega))) := by
  rcases execRet_cases s with ⟨_, he⟩ | ⟨h0, -⟩
  · exact he
  · omega

theorem exec_ret_of_zero (h : s.sp.val = 0) :
    exec .ret s = .next (s.raiseFault .stackUnderflow (some (encode .ret)) none) := by
  rcases execRet_cases s with ⟨hpos, -⟩ | ⟨-, he⟩
  · omega
  · exact he

theorem exec_call_of_lt (nnn : Word) (h : s.sp.val < 16) : exec (.call nnn) s =
    .next ((s.advance.setStack (s.stack.set s.sp.val (s.pc + 2)) ⟨s.sp.val + 1, by omega⟩).setPc nnn) := by
  rcases execCall_cases nnn s with ⟨_, he⟩ | ⟨hfull, -⟩
  · exact he
  · omega

theorem exec_call_of_full (nnn : Word) (h : s.sp.val = 16) :
    exec (.call nnn) s = .next (s.raiseFault .stackOverflow (some (encode (.call nnn))) none) := by
  rcases execCall_cases nnn s with ⟨hlt, -⟩ | ⟨-, he⟩
  · omega
  · exact he

theorem exec_drw_of_fits {n : Nat} (h : n = 0 ∨ s.i.toNat + (n - 1) < 4096) : exec (.drw x y n) s =
    .next ((s.advance.setFb (Canvas.draw s.mem s.i.toNat (s.readV x) (s.readV y) n { fb := s.fb, hit := false }).fb).writeV
      RegIdx.vF (flagByte (Canvas.draw s.mem s.i.toNat (s.readV x) (s.readV y) n { fb := s.fb, hit := false }).hit)) := by
  rcases execDrw_cases x y n s with ⟨-, drawn, rfl, he⟩ | ⟨hbad, -⟩
  · exact he
  · omega

theorem exec_drw_of_bad {n : Nat} (h : n > 0 ∧ s.i.toNat + (n - 1) ≥ 4096) : exec (.drw x y n) s =
    .next (s.raiseFault .addressOutOfRange (some (encode (.drw x y n))) (some (max s.i.toNat 4096))) := by
  rcases execDrw_cases x y n s with ⟨hfits, -⟩ | ⟨-, he⟩
  · omega
  · exact he

theorem exec_skp_of_lt (h : (s.readV x).toNat < 16) :
    exec (.skp x) s = .next (s.advance.skipIf (s.key ⟨(s.readV x).toNat, h⟩)) := by
  rcases execSkp_cases x s with ⟨_, he⟩ | ⟨hbig, -⟩
  · exact he
  · omega

theorem exec_skp_of_gt (h : (s.readV x).toNat > 15) : exec (.skp x) s =
    .next (s.raiseFault .keyIndexOutOfRange (some (encode (.skp x))) (some (s.readV x).toNat)) := by
  rcases execSkp_cases x s with ⟨hlt, -⟩ | ⟨-, he⟩
  · omega
  · exact he

theorem exec_sknp_of_lt (h : (s.readV x).toNat < 16) :
    exec (.sknp x) s = .next (s.advance.skipIf (!s.key ⟨(s.readV x).toNat, h⟩)) := by
  rcases execSknp_cases x s with ⟨_, he⟩ | ⟨hbig, -⟩
  · exact he
  · omega

theorem exec_sknp_of_gt (h : (s.readV x).toNat > 15) : exec (.sknp x) s =
    .next (s.raiseFault .keyIndexOutOfRange (some (encode (.sknp x))) (some (s.readV x).toNat)) := by
  rcases execSknp_cases x s with ⟨hlt, -⟩ | ⟨-, he⟩
  · omega
  · exact he

theorem exec_ldB_of_lt (h : s.i.toNat + 2 < 4096) :
    exec (.ldB x) s = .next (s.advance.setMem (s.mem.writeBytes s.i.toNat (bcdDigits (s.readV x)))) := by
  rcases execLdB_cases x s with ⟨-, he⟩ | ⟨hbad, -⟩
  · exact he
  · omega

theorem exec_ldB_of_ge (h : s.i.toNat + 2 ≥ 4096) : exec (.ldB x) s =
    .next (s.raiseFault .addressOutOfRange (some (encode (.ldB x))) (some (max s.i.toNat 4096))) := by
  rcases execLdB_cases x s with ⟨hfits, -⟩ | ⟨-, he⟩
  · omega
  · exact he

theorem exec_stRegs_of_lt (h : s.i.toNat + x.val < 4096) :
    exec (.stRegs x) s = .next (s.advance.setMem (s.mem.writeBytes s.i.toNat (s.registersTo x))) := by
  rcases execStRegs_cases x s with ⟨-, he⟩ | ⟨hbad, -⟩
  · exact he
  · omega

theorem exec_stRegs_of_ge (h : s.i.toNat + x.val ≥ 4096) : exec (.stRegs x) s =
    .next (s.raiseFault .addressOutOfRange (some (encode (.stRegs x))) (some (max s.i.toNat 4096))) := by
  rcases execStRegs_cases x s with ⟨hfits, -⟩ | ⟨-, he⟩
  · omega
  · exact he

theorem exec_ldRegs_of_lt (h : s.i.toNat + x.val < 4096) :
    exec (.ldRegs x) s = .next (s.advance.setV (loadRegisters s.mem s.i.toNat x s.v)) := by
  rcases execLdRegs_cases x s with ⟨-, he⟩ | ⟨hbad, -⟩
  · exact he
  · omega

theorem exec_ldRegs_of_ge (h : s.i.toNat + x.val ≥ 4096) : exec (.ldRegs x) s =
    .next (s.raiseFault .addressOutOfRange (some (encode (.ldRegs x))) (some (max s.i.toNat 4096))) := by
  rcases execLdRegs_cases x s with ⟨hfits, -⟩ | ⟨-, he⟩
  · omega
  · exact he

end Sys2Proof.Machine
end

section
/-! What a program cannot see (10_state.md sections 5, 6, 10 and 14, 60_exceptions.md section 12): a state that looks alike is the
same state with other hidden parts, and every Step carries the hidden parts along. -/

namespace Sys2Proof.Machine

/-- Contents for the parts no instruction reads. -/
structure Hidden where
  st        : Byte
  stack     : Vector Word 16
  faultInfo : Option FaultRecord
  outputs   : List Output
  font      : Font

/-- `s` with other contents in the parts no instruction reads. -/
def State.withHidden (s : State) (h : Hidden) : State :=
  { s with
    st := h.st, stack := h.stack, faultInfo := h.faultInfo, env := { s.env with outputs := h.outputs, font := h.font } }

/-- The stack cells in use are those of `s`: the ones at and above SP alone are hidden (10_state.md R24). -/
def Hidden.Agrees (h : Hidden) (s : State) : Prop := ∀ k : Fin 16, k.val < s.sp.val → h.stack[k.val] = s.stackAt k

theorem lookAlike_withHidden {s : State} {h : Hidden} (hs : h.Agrees s) : LookAlike s (s.withHidden h) :=
  ⟨rfl, rfl, rfl, rfl, rfl, hs, rfl, rfl, rfl, rfl, rfl, rfl, rfl⟩

theorem LookAlike.exists_withHidden {s t : State} (h : LookAlike s t) :
    ∃ hd : Hidden, hd.Agrees s ∧ t = s.withHidden hd := by
  obtain ⟨hmem, hv, hi, hpc, hsp, hstack, hdt, hkeys, hfb, hmode, hschedule, hfeed, hdraws⟩ := h
  refine ⟨⟨t.st, t.stack, t.faultInfo, t.env.outputs, t.env.font⟩, hstack, ?_⟩
  simp only [State.withHidden, ← hmem, ← hv, ← hi, ← hpc, ← hsp, ← hdt, ← hkeys, ← hfb, ← hmode, ← hschedule,
    ← hfeed, ← hdraws]

/-- Two outcomes are next states that look alike. -/
def Alike (o o' : Host.Outcome State Fault Refusal) : Prop :=
  ∃ t t', o = .next t ∧ o' = .next t' ∧ LookAlike t t'

/-- A fault writes the same record over whatever FAULTINFO held. -/
theorem lookAlike_raiseFault {s : State} {h : Hidden} (hs : h.Agrees s) (kind : ErrorKind) (op : Option Word)
    (addr : Option Nat) : LookAlike (s.raiseFault kind op addr) ((s.withHidden h).raiseFault kind op addr) :=
  lookAlike_withHidden (s := s.raiseFault kind op addr) (h := { h with faultInfo := some ⟨kind, s.pc, op, addr⟩ }) hs

/-- A call makes the cell it pushes a visible one, and pushes the same PC on both sides. -/
theorem alike_call {s : State} {h : Hidden} (hs : h.Agrees s) (nnn : Word) :
    Alike (exec (.call nnn) s) (exec (.call nnn) (s.withHidden h)) := by
  by_cases hsp : s.sp.val < 16
  · refine ⟨_, _, exec_call_of_lt nnn hsp, exec_call_of_lt (s := s.withHidden h) nnn hsp,
      lookAlike_withHidden (h := { h with stack := h.stack.set s.sp.val (s.pc + 2) }) fun k hk => ?_⟩
    change k.val < s.sp.val + 1 at hk
    change (h.stack.set s.sp.val (s.pc + 2))[k.val] = (s.stack.set s.sp.val (s.pc + 2))[k.val]
    rw [Vector.getElem_set, Vector.getElem_set]
    split
    · rfl
    · exact hs k (by omega)
  · have hfull : s.sp.val = 16 := by omega
    exact ⟨_, _, exec_call_of_full nnn hfull, exec_call_of_full (s := s.withHidden h) nnn hfull,
      lookAlike_raiseFault hs _ _ _⟩

/-- A return reads the highest cell in use, which is not hidden. -/
theorem alike_ret {s : State} {h : Hidden} (hs : h.Agrees s) : Alike (exec .ret s) (exec .ret (s.withHidden h)) := by
  by_cases hsp : 0 < s.sp.val
  · refine ⟨_, _, exec_ret_of_pos hsp, exec_ret_of_pos (s := s.withHidden h) hsp, ?_⟩
    have htop : h.stack[s.sp.val - 1] = s.stack[s.sp.val - 1] := hs ⟨s.sp.val - 1, by omega⟩ (Nat.sub_lt hsp Nat.one_pos)
    change LookAlike _ (State.setPc h.stack[s.sp.val - 1] _)
    rw [htop]
    exact lookAlike_withHidden (h := h) fun k hk => hs k (Nat.lt_of_lt_of_le hk (Nat.sub_le _ _))
  · have hempty : s.sp.val = 0 := by omega
    exact ⟨_, _, exec_ret_of_zero hempty, exec_ret_of_zero (s := s.withHidden h) hempty, lookAlike_raiseFault hs _ _ _⟩

/-- The skips carry the hidden parts along. -/
theorem lookAlike_skipIf {s : State} {h : Hidden} (hs : h.Agrees s) (c : Bool) :
    LookAlike (s.advance.skipIf c) ((s.withHidden h).advance.skipIf c) := by
  rw [State.advance_skipIf, State.advance_skipIf]
  exact lookAlike_withHidden (s := s.setPc _) hs

/-- Every instruction gives, from two states that differ in the hidden parts, two states that differ there at most. -/
theorem exec_alike (i : Instr) {s : State} {h : Hidden} (hs : h.Agrees s) : Alike (exec i s) (exec i (s.withHidden h)) := by
  cases i with
  | call nnn => exact alike_call hs nnn
  | ret => exact alike_ret hs
  | ldStVx x => exact ⟨_, _, rfl, rfl, lookAlike_withHidden (h := { h with st := s.readV x }) hs⟩
  | seI | sneI | seR | sneR => exact ⟨_, _, rfl, rfl, lookAlike_skipIf hs _⟩
  | skp x =>
    by_cases hx : (s.readV x).toNat < 16
    · exact ⟨_, _, exec_skp_of_lt hx, exec_skp_of_lt (s := s.withHidden h) hx, lookAlike_skipIf hs _⟩
    · have hbig : (s.readV x).toNat > 15 := by omega
      exact ⟨_, _, exec_skp_of_gt hbig, exec_skp_of_gt (s := s.withHidden h) hbig, lookAlike_raiseFault hs _ _ _⟩
  | sknp x =>
    by_cases hx : (s.readV x).toNat < 16
    · exact ⟨_, _, exec_sknp_of_lt hx, exec_sknp_of_lt (s := s.withHidden h) hx, lookAlike_skipIf hs _⟩
    · have hbig : (s.readV x).toNat > 15 := by omega
      exact ⟨_, _, exec_sknp_of_gt hbig, exec_sknp_of_gt (s := s.withHidden h) hbig, lookAlike_raiseFault hs _ _ _⟩
  | drw x y n =>
    by_cases hr : n = 0 ∨ s.i.toNat + (n - 1) < 4096
    · exact ⟨_, _, exec_drw_of_fits hr, exec_drw_of_fits (s := s.withHidden h) hr, lookAlike_withHidden (h := h) hs⟩
    · have hbad : n > 0 ∧ s.i.toNat + (n - 1) ≥ 4096 := by omega
      exact ⟨_, _, exec_drw_of_bad hbad, exec_drw_of_bad (s := s.withHidden h) hbad, lookAlike_raiseFault hs _ _ _⟩
  | ldB x =>
    rcases Nat.lt_or_ge (s.i.toNat + 2) 4096 with hr | hr
    · exact ⟨_, _, exec_ldB_of_lt hr, exec_ldB_of_lt (s := s.withHidden h) hr, lookAlike_withHidden (h := h) hs⟩
    · exact ⟨_, _, exec_ldB_of_ge hr, exec_ldB_of_ge (s := s.withHidden h) hr, lookAlike_raiseFault hs _ _ _⟩
  | stRegs x =>
    rcases Nat.lt_or_ge (s.i.toNat + x.val) 4096 with hr | hr
    · exact ⟨_, _, exec_stRegs_of_lt hr, exec_stRegs_of_lt (s := s.withHidden h) hr, lookAlike_withHidden (h := h) hs⟩
    · exact ⟨_, _, exec_stRegs_of_ge hr, exec_stRegs_of_ge (s := s.withHidden h) hr, lookAlike_raiseFault hs _ _ _⟩
  | ldRegs x =>
    rcases Nat.lt_or_ge (s.i.toNat + x.val) 4096 with hr | hr
    · exact ⟨_, _, exec_ldRegs_of_lt hr, exec_ldRegs_of_lt (s := s.withHidden h) hr, lookAlike_withHidden (h := h) hs⟩
    · exact ⟨_, _, exec_ldRegs_of_ge hr, exec_ldRegs_of_ge (s := s.withHidden h) hr, lookAlike_raiseFault hs _ _ _⟩
  | cls | jp | ldI | addI | ldR | or | and | xor | addR | sub | shr | subn | shl | ldIdx | jpV0 | rnd | ldVxDt | ldVxK
  | ldDtVx | addIdx | ldF => exact ⟨_, _, rfl, rfl, lookAlike_withHidden (h := h) hs⟩

/-- So does a Step event: MODE and the fetch do not depend on the hidden parts. -/
theorem cycle_alike {s : State} {h : Hidden} (hs : h.Agrees s) : Alike (cycle s) (cycle (s.withHidden h)) := by
  by_cases hm : s.mode = .running
  · match hf : s.fetch with
    | .error bad =>
      exact ⟨_, _, cycle_of_fetch_error hm hf, cycle_of_fetch_error (s := s.withHidden h) hm hf,
        lookAlike_raiseFault hs _ _ _⟩
    | .ok op =>
      match hd : decode op with
      | .error r =>
        exact ⟨_, _, cycle_of_unknown hm hf hd, cycle_of_unknown (s := s.withHidden h) hm hf hd,
          lookAlike_withHidden (s := s.reportUnknown op) (h := { h with outputs := .diag op s.pc :: h.outputs }) hs⟩
      | .ok i =>
        rw [cycle_of_decode hm hf hd, cycle_of_decode (s := s.withHidden h) hm hf hd]
        exact exec_alike i hs
  · exact ⟨_, _, cycle_of_not_running hm, cycle_of_not_running (s := s.withHidden h) hm, lookAlike_withHidden hs⟩

/-- Settles O53: the second state is the first with other hidden parts, which the Step carries along. -/
theorem hiddenStateIsNeverSeen : Obligations.HiddenStateIsNeverSeen := fun s s' t t' halike ht ht' => by
  obtain ⟨h, hs, rfl⟩ := halike.exists_withHidden
  obtain ⟨u, u', hu, hu', hlook⟩ := cycle_alike hs
  rw [ht] at hu
  rw [ht'] at hu'
  cases hu
  cases hu'
  exact hlook

end Sys2Proof.Machine
end

section
/-! The end of a run (70_reset_and_hazards.md sections 3 and 4), and Reset (section 1). -/

namespace Sys2Proof.Machine

/-! ## The halted condition -/

/-- The condition is of MODE, PC and memory only. -/
theorem Halted.of_eq {s t : State} (h : Halted s) (hmode : t.mode = s.mode) (hpc : t.pc = s.pc) (hmem : t.mem = s.mem) :
    Halted t := by
  obtain ⟨hm, hbound, hf⟩ := h
  exact ⟨hmode.trans hm, by rwa [hpc], by rwa [State.fetch, hmem, hpc]⟩

/-- The word at PC decodes to a jump to PC. -/
theorem decode_jump_to (pc : Word) (h : pc.toNat < 4096) : decode (0x1000 + pc) = .ok (.jp pc) := by
  have hword : BitVec.ofNat 16 (0x1000 + pc.toNat) = 0x1000 + pc := BitVec.eq_of_toNat_eq (by simp)
  rw [← hword]
  exact (encodedAs_jp pc h).1

theorem Halted.cycle_eq {s : State} (h : Halted s) : cycle s = .next s := by
  obtain ⟨hm, hbound, hf⟩ := h
  rw [cycle_of_decode hm hf (decode_jump_to s.pc (by omega)), exec_jp]
  rfl

theorem Halted.tick {s : State} (h : Halted s) : Halted (tick s) := by
  rcases tick_cases s with ⟨-, heq⟩ | ⟨-, heq⟩ <;> rw [heq]
  · exact h
  · exact h.of_eq rfl rfl rfl

theorem Halted.keyDown {s : State} (h : Halted s) (k : KeyIdx) : Halted (keyDown k s) := by
  rcases keyDown_cases k s with ⟨-, heq⟩ | ⟨-, -, heq⟩ | ⟨x, hm, -, -⟩
  · rwa [heq]
  · rw [heq]
    exact h.of_eq rfl rfl rfl
  · exact absurd (h.1.symm.trans hm) nofun

theorem Halted.keyUp {s : State} (h : Halted s) (k : KeyIdx) : Halted (keyUp k s) := by
  rcases keyUp_cases k s with ⟨-, heq⟩ | ⟨-, heq⟩ <;> rw [heq]
  · exact h
  · exact h.of_eq rfl rfl rfl

/-- Settles O54: the jump to itself leaves the state, and no Tick or key event writes MODE, PC or memory. -/
theorem haltedIsAFixedPoint : Obligations.HaltedIsAFixedPoint := fun _ h =>
  ⟨h.cycle_eq, h.tick, fun k => ⟨h.keyDown k, h.keyUp k⟩⟩

/-- Settles O55: each Step of the period only takes itself off the schedule, and the Tick comes last. -/
theorem haltedDriverPeriodOnlyTicks : Obligations.HaltedDriverPeriodOnlyTicks := fun ipt => by
  induction ipt with
  | zero =>
    intro rest s _ hs
    rw [run_succ_of_next (step_of_cons hs)]
    rfl
  | succ ipt ih =>
    intro rest s h hs
    have hs' : s.env.schedule = .step :: (driverPeriod ipt ++ rest) := hs
    have hhalted : Halted (s.setEnv { s.env with schedule := driverPeriod ipt ++ rest }) := h.of_eq rfl rfl rfl
    rw [run_succ_of_next ((step_of_cons hs').trans hhalted.cycle_eq), ih rest _ hhalted rfl]
    rfl

/-! ## Reset -/

theorem State.readV_reset (r : RegIdx) : State.reset.readV r = 0 := Vector.getElem_replicate r.isLt

theorem State.key_reset (k : KeyIdx) : State.reset.key k = false := Vector.getElem_replicate k.isLt

/-- Settles O45: the loaded state is the reset state with the boot memory and the environment's part. -/
theorem resetLoadsTheImage : Obligations.ResetLoadsTheImage := fun rom e hrom => by
  rcases resetWith_cases rom e with ⟨-, h⟩ | ⟨hlong, -⟩
  · rw [h]
    exact ⟨read_bootMemory e.font rom hrom, rfl, Framebuffer.pixel_blank, rfl, rfl, State.readV_reset, rfl, rfl, rfl, rfl,
      State.key_reset, rfl⟩
  · omega

/-- Settles O46: the rejected image leaves a fault taken from the state an empty image gives. -/
theorem oversizedImageIsRejected : Obligations.OversizedImageIsRejected := fun rom e hlong => by
  rcases resetWith_cases rom e with ⟨hfits, -⟩ | ⟨-, h⟩
  · omega
  · rw [h]
    exact ⟨rfl, rfl, sameExcept_raiseFault (State.resetWith [] e) .romTooLarge none (some rom.length)⟩

end Sys2Proof.Machine
end

section
/-! The obligations of call and return (40_family_0-2_control.md R81, R83, 10_state.md section 5) and of the key skips
(45_family_E_keys.md). -/

namespace Sys2Proof.Machine

/-- Settles O14: a call is a PC advance, one stack update and one PC update, or a fault taken. -/
theorem callPushesTheReturnAddress : Obligations.CallPushesTheReturnAddress := fun nnn s => by
  refine ⟨encodedAs_call nnn, fun hsp => ?_, fun hfull => ?_⟩
  · refine ⟨_, exec_call_of_lt nnn hsp, rfl, rfl, stackAt_of_push hsp rfl, ?_⟩
    exact (((sameExcept_advance s).trans (sameExcept_setStack _ _ _)).trans (sameExcept_setPc _ nnn)).mono (by simp)
  · exact ⟨_, exec_call_of_full nnn hfull, faultTaken_raiseFault _ _ _ _⟩

/-- Settles O15: a return lowers SP, keeps the cells and sets PC, or takes a fault. -/
theorem returnPopsPc : Obligations.ReturnPopsPc := by
  refine ⟨encodedAs_ret, fun s => ⟨fun hpos => ?_, fun hzero => ?_⟩⟩
  · refine ⟨_, exec_ret_of_pos hpos, rfl, rfl, fun _ => rfl, ?_⟩
    exact (((sameExcept_advance s).trans (sameExcept_setStack _ _ _)).trans (sameExcept_setPc _ _)).mono (by simp)
  · exact ⟨_, exec_ret_of_zero hzero, faultTaken_raiseFault _ _ _ _⟩

/-- Settles O16: the return pops the cell that the call pushed, the highest one in use. -/
theorem returnUndoesCall : Obligations.ReturnUndoesCall := fun nnn s t u hsp hcall ⟨hspu, hstack⟩ => by
  obtain ⟨-, hpush, -⟩ := callPushesTheReturnAddress nnn s
  obtain ⟨t', ht', -, hspt, hcells, -⟩ := hpush hsp
  obtain rfl : t' = t := Host.Outcome.next.inj (ht'.symm.trans hcall)
  have hu : u.sp.val = s.sp.val + 1 := by rw [hspu, hspt]
  obtain ⟨w, hw, hpc, hspw, hkept, -⟩ := (returnPopsPc.2 u).1 (by omega)
  refine ⟨w, hw, ?_, Fin.ext (by omega), fun k hk => ?_⟩
  · rw [hpc, hstack, hcells, if_pos (Nat.sub_eq_of_eq_add hu)]
  · rw [hkept, hstack, hcells, if_neg (by omega)]

/-- Settles O18: with a key index the skip is one update of PC, and without one a fault is taken. -/
theorem keySkipsReadOneKey : Obligations.KeySkipsReadOneKey := fun x s => by
  refine ⟨encodedAs_skp x, encodedAs_sknp x, fun h => ⟨?_, ?_⟩, fun h => ⟨?_, ?_⟩⟩
  · refine ⟨_, exec_skp_of_lt h, ?_⟩
    rw [State.advance_skipIf]
    exact ⟨rfl, sameExcept_setPc s _⟩
  · refine ⟨_, exec_sknp_of_lt h, ?_⟩
    rw [State.advance_skipIf]
    refine ⟨?_, sameExcept_setPc s _⟩
    cases s.key ⟨(s.readV x).toNat, h⟩ <;> rfl
  · exact ⟨_, exec_skp_of_gt h, faultTaken_raiseFault _ _ _ _⟩
  · exact ⟨_, exec_sknp_of_gt h, faultTaken_raiseFault _ _ _ _⟩

end Sys2Proof.Machine
end

section
/-! The obligations of the flagged arithmetic of family 8 (42_family_8_alu.md R90, R95 to R99) and of the random byte
(43_family_9-C_misc.md R103). -/

namespace Sys2Proof.Machine

theorem exec_addR (x y : RegIdx) (s : State) : exec (.addR x y) s =
    .next (s.advance.writeFlagged x (carryFlag (s.readV x) (s.readV y)) (s.readV x + s.readV y)) := rfl

theorem exec_sub (x y : RegIdx) (s : State) : exec (.sub x y) s =
    .next (s.advance.writeFlagged x (greaterFlag (s.readV x) (s.readV y)) (s.readV x - s.readV y)) := rfl

theorem exec_subn (x y : RegIdx) (s : State) : exec (.subn x y) s =
    .next (s.advance.writeFlagged x (greaterFlag (s.readV y) (s.readV x)) (s.readV y - s.readV x)) := rfl

theorem exec_shr (x y : RegIdx) (s : State) : exec (.shr x y) s =
    .next (s.advance.writeFlagged x (shiftedOutRight (s.readV x)) (s.readV x >>> 1)) := rfl

theorem exec_shl (x y : RegIdx) (s : State) : exec (.shl x y) s =
    .next (s.advance.writeFlagged x (shiftedOutLeft (s.readV x)) (s.readV x <<< 1)) := rfl

theorem exec_rnd (x : RegIdx) (nn : Byte) (s : State) : exec (.rnd x nn) s =
    .next ((s.advance.writeV x (s.env.drawn &&& nn)).setEnv s.env.afterDraw) := rfl

theorem readV_writeFlagged_result (s : State) (x : RegIdx) (flag : Bool) (b : Byte) :
    (s.writeFlagged x flag b).readV x = b := by
  rw [State.readV_writeFlagged, if_pos rfl]

theorem readV_writeFlagged_flag (s : State) {x : RegIdx} (flag : Bool) (b : Byte) (hx : x ≠ 15) :
    (s.writeFlagged x flag b).readV 15 = flagByte flag := by
  rw [State.readV_writeFlagged, if_neg hx.symm, if_pos rfl]

/-- An instruction that writes VF and V[x] keeps the other registers, advances PC and keeps every other part. -/
theorem advance_writeFlagged_frame (s : State) (x : RegIdx) (flag : Bool) (b : Byte) :
    (∀ r, r ≠ x → r ≠ 15 → (s.advance.writeFlagged x flag b).readV r = s.readV r) ∧
    (s.advance.writeFlagged x flag b).pc = s.pc + 2 ∧
    SameExcept [.registers, .pc] s (s.advance.writeFlagged x flag b) := by
  refine ⟨fun r hx hF => ?_, rfl, ?_⟩
  · rw [State.readV_writeFlagged, if_neg hx, if_neg hF, State.readV_advance]
  · exact (((sameExcept_advance s).trans (sameExcept_writeV _ RegIdx.vF _)).trans (sameExcept_writeV _ x b)).mono (by simp)

theorem flagByte_decide (p : Prop) [Decidable p] : flagByte (decide p) = if p then 1 else 0 := by
  by_cases h : p
  · rw [decide_eq_true h, if_pos h]
    rfl
  · rw [decide_eq_false h, if_neg h]
    rfl

/-- Settles O21: the sum is written over the carry. -/
theorem addWritesSumAndCarry : Obligations.AddWritesSumAndCarry := fun x y s => by
  refine ⟨encodedAs_addR x y, _, exec_addR x y s, ?_, fun hx => ?_, advance_writeFlagged_frame s x _ _⟩
  · rw [readV_writeFlagged_result, BitVec.toNat_add]
  · rw [readV_writeFlagged_flag _ _ _ hx, carryFlag, flagByte_decide]

theorem toNat_byte_sub (a b : Byte) : (a - b).toNat = (a.toNat + 256 - b.toNat) % 256 := by
  have hb := b.isLt
  rw [BitVec.toNat_sub]
  omega

/-- Settles O22: the two subtractions differ in which operand is the minuend. -/
theorem subtractsWriteDifferenceAndStrictGreater : Obligations.SubtractsWriteDifferenceAndStrictGreater := fun x y s => by
  refine ⟨encodedAs_sub x y, encodedAs_subn x y, ?_, ?_⟩
  · refine ⟨_, exec_sub x y s, ?_, fun hx => ?_, advance_writeFlagged_frame s x _ _⟩
    · rw [readV_writeFlagged_result, toNat_byte_sub]
    · rw [readV_writeFlagged_flag _ _ _ hx, greaterFlag, flagByte_decide]
  · refine ⟨_, exec_subn x y s, ?_, fun hx => ?_, advance_writeFlagged_frame s x _ _⟩
    · rw [readV_writeFlagged_result, toNat_byte_sub]
    · rw [readV_writeFlagged_flag _ _ _ hx, greaterFlag, flagByte_decide]

/-- Settles O23: the shifts read V[x] only, and the bit shifted out is what the flag byte holds. -/
theorem shiftsIgnoreVyAndKeepTheBitOut : Obligations.ShiftsIgnoreVyAndKeepTheBitOut := fun x y s => by
  refine ⟨encodedAs_shr x y, encodedAs_shl x y, ?_, ?_⟩
  · refine ⟨_, exec_shr x y s, ?_, fun hx => ?_, advance_writeFlagged_frame s x _ _⟩
    · rw [readV_writeFlagged_result, BitVec.toNat_ushiftRight, Nat.shiftRight_eq_div_pow, pow_one]
    · rw [readV_writeFlagged_flag _ _ _ hx, flagByte_shiftedOutRight]
  · refine ⟨_, exec_shl x y s, ?_, fun hx => ?_, advance_writeFlagged_frame s x _ _⟩
    · rw [readV_writeFlagged_result, BitVec.toNat_shiftLeft, Nat.shiftLeft_eq, pow_one, Nat.mul_comm]
    · rw [readV_writeFlagged_flag _ _ _ hx, flagByte_shiftedOutLeft]

/-- Settles O26: the byte drawn is the head of the feed or the free value of the draw's number. -/
theorem randomIsOneDrawUnderTheMask : Obligations.RandomIsOneDrawUnderTheMask := fun x nn s => by
  refine ⟨encodedAs_rnd x nn, _, s.env.drawn, exec_rnd x nn s, ?_, fun b rest h => ?_, fun h => ?_, rfl, rfl, rfl, rfl,
    fun r hr => ?_, rfl, ?_⟩
  · exact State.readV_writeV_same s.advance x _
  · exact ⟨by rw [Environment.drawn, h], congrArg List.tail h⟩
  · exact ⟨by rw [Environment.drawn, h], congrArg List.tail h⟩
  · exact State.readV_writeV_of_ne s.advance _ hr
  · exact (((sameExcept_advance s).trans (sameExcept_writeV _ x _)).trans (sameExcept_setEnv _ _)).mono (by simp)

end Sys2Proof.Machine
end

section
/-! The obligations of memory and of the instructions that reach it (20_memory.md sections 1, 2, 4, 6 and 9,
46_family_F_timer_index_memory.md R121 to R123, 60_exceptions.md section 5). -/

namespace Sys2Proof.Machine

/-! ## Memory as data -/

/-- Settles O33: the read after a write, and the range checks of a read. -/
theorem memoryReadsTheLatestWrite : Obligations.MemoryReadsTheLatestWrite := fun m a b v => by
  refine ⟨Memory.read_write m a b v, fun ha => ?_, fun ha => ?_⟩
  · rw [Memory.readByte_eq, if_pos ha, Memory.read_write, if_pos ⟨rfl, ha⟩]
  · rw [Memory.readByte_eq, if_neg (by omega)]

/-- Nothing is listed at or below the bound of a canonical list, so such an address reads as after reset. -/
theorem Memory.read_of_wfAbove (m : Memory) {l a : Nat} (hm : Memory.wfAbove (some l) m = true) (ha : a ≤ l) :
    m.read a = resetByte a := by
  induction m generalizing l with
  | nil => rfl
  | cons c rest ih =>
    obtain ⟨b, w⟩ := c
    obtain ⟨⟨hlow, -, -⟩, hrest⟩ := (Memory.wfAbove_cons (some l) b w rest).1 hm
    have hb : l < b := of_decide_eq_true hlow
    rw [Memory.read_cons, if_neg (by omega), ih hrest (by omega)]

/-- The head of a canonical list is seen at its address: a list with nothing there reads otherwise. -/
theorem Memory.read_head_ne {low : Option Nat} {a : Nat} {v : Byte} {rest m : Memory}
    (hcons : Memory.wfAbove low ((a, v) :: rest) = true) (hm : Memory.wfAbove (some a) m = true) :
    Memory.read ((a, v) :: rest) a ≠ m.read a := by
  obtain ⟨⟨-, -, hv⟩, -⟩ := (Memory.wfAbove_cons low a v rest).1 hcons
  rwa [Memory.read_cons, if_pos rfl, Memory.read_of_wfAbove m hm le_rfl]

/-- The bound of a canonical list may be put anywhere below its head. -/
theorem Memory.wfAbove_of_lt {low : Option Nat} {a b : Nat} {w : Byte} {rest : Memory} (hab : a < b)
    (h : Memory.wfAbove low ((b, w) :: rest) = true) : Memory.wfAbove (some a) ((b, w) :: rest) = true := by
  obtain ⟨⟨-, hb⟩, hrest⟩ := (Memory.wfAbove_cons low b w rest).1 h
  exact (Memory.wfAbove_cons _ b w rest).2 ⟨⟨decide_eq_true hab, hb⟩, hrest⟩

/-- Canonical lists that read alike are equal: their heads stand at one address with one byte, and so on down. -/
theorem Memory.eq_of_read_eq (m m' : Memory) {low low' : Option Nat} (hm : Memory.wfAbove low m = true)
    (hm' : Memory.wfAbove low' m' = true) (hread : ∀ a, m.read a = m'.read a) : m = m' := by
  induction m generalizing low low' m' with
  | nil =>
    cases m' with
    | nil => rfl
    | cons c' rest' => exact absurd (hread c'.1).symm (Memory.read_head_ne hm' rfl)
  | cons c rest ih =>
    obtain ⟨a, v⟩ := c
    cases m' with
    | nil => exact absurd (hread a) (Memory.read_head_ne hm rfl)
    | cons c' rest' =>
      obtain ⟨b, w⟩ := c'
      rcases Nat.lt_trichotomy a b with hab | rfl | hba
      · exact absurd (hread a) (Memory.read_head_ne hm (Memory.wfAbove_of_lt hab hm'))
      · obtain ⟨-, hrest⟩ := (Memory.wfAbove_cons low a v rest).1 hm
        obtain ⟨-, hrest'⟩ := (Memory.wfAbove_cons low' a w rest').1 hm'
        simp only [Memory.read_cons] at hread
        have hbyte : v = w := by simpa only [if_true] using hread a
        have htail : ∀ k, Memory.read rest k = Memory.read rest' k := fun k => by
          by_cases hk : k = a
          · rw [Memory.read_of_wfAbove rest hrest hk.le, Memory.read_of_wfAbove rest' hrest' hk.le]
          · simpa only [if_neg hk] using hread k
        rw [hbyte, ih rest' hrest hrest' htail]
      · exact absurd (hread b).symm (Memory.read_head_ne hm' (Memory.wfAbove_of_lt hba hm))

/-- Settles O34: the canonical form at no bound. -/
theorem canonicalMemoriesReadingAlikeAreEqual : Obligations.CanonicalMemoriesReadingAlikeAreEqual :=
  fun m m' hm hm' hread => Memory.eq_of_read_eq m m' hm hm' hread

/-! ## Stores and loads at I -/

/-- An instruction that only writes memory: PC advances and every other part is kept. -/
theorem advance_setMem_frame (s : State) (m : Memory) :
    (s.advance.setMem m).pc = s.pc + 2 ∧ SameExcept [.memory, .pc] s (s.advance.setMem m) :=
  ⟨rfl, (sameExcept_advance s).trans (sameExcept_setMem _ m)⟩

/-- The digit stored at `a + k` is the one of weight `10 ^ (2 - k)` (46_family_F_timer_index_memory.md R121). -/
theorem read_writeBytes_bcdDigits (m : Memory) (b : Byte) {a k : Nat} (ha : a + 2 < 4096) (hk : k < 3) :
    ((m.writeBytes a (bcdDigits b)).read (a + k)).toNat = b.toNat / 10 ^ (2 - k) % 10 := by
  have hb := b.isLt
  have hlen : (bcdDigits b).length = 3 := rfl
  have hdigits := bcdDigits_toNat b
  simp only [bcdDigits, List.map_cons, List.map_nil, List.cons.injEq, and_true] at hdigits
  obtain ⟨h0, h1, h2⟩ := hdigits
  rw [Memory.read_writeBytes _ _ _ _ (by omega), if_pos (by omega), Nat.add_sub_cancel_left]
  interval_cases k
  · exact h0.trans (by omega)
  · exact h1.trans (by omega)
  · exact h2.trans (by omega)

theorem read_writeBytes_bcdDigits_of_outside (m : Memory) (b : Byte) {a c : Nat} (ha : a + 2 < 4096)
    (hc : c < a ∨ a + 2 < c) : (m.writeBytes a (bcdDigits b)).read c = m.read c := by
  have hlen : (bcdDigits b).length = 3 := rfl
  rw [Memory.read_writeBytes _ _ _ _ (by omega), if_neg (by omega)]

theorem read_writeBytes_registersTo (m : Memory) (s : State) {a : Nat} {x r : RegIdx} (ha : a + x.val < 4096)
    (hr : r ≤ x) : (m.writeBytes a (s.registersTo x)).read (a + r.val) = s.readV r := by
  have hlen := s.length_registersTo x
  have hrx := Fin.le_def.mp hr
  rw [Memory.read_writeBytes _ _ _ _ (by omega), if_pos (by omega), Nat.add_sub_cancel_left, State.getD_registersTo s x r hr]

theorem read_writeBytes_registersTo_of_outside (m : Memory) (s : State) {a c : Nat} {x : RegIdx} (ha : a + x.val < 4096)
    (hc : c < a ∨ a + x.val < c) : (m.writeBytes a (s.registersTo x)).read c = m.read c := by
  have hlen := s.length_registersTo x
  rw [Memory.read_writeBytes _ _ _ _ (by omega), if_neg (by omega)]

/-- Settles O27: the three digits of a byte, the first at most 2, and no byte beside them. -/
theorem bcdStoresThreeDigits : Obligations.BcdStoresThreeDigits := fun x s => by
  refine ⟨encodedAs_ldB x, fun hi => ⟨_, exec_ldB_of_lt hi, ?_, ?_, ?_, fun a ha => ?_, advance_setMem_frame s _⟩⟩
  · have hb := (s.readV x).isLt
    exact (read_writeBytes_bcdDigits s.mem (s.readV x) (k := 0) hi (by decide)).trans (by omega)
  · exact read_writeBytes_bcdDigits s.mem (s.readV x) (k := 1) hi (by decide)
  · exact (read_writeBytes_bcdDigits s.mem (s.readV x) (k := 2) hi (by decide)).trans (by omega)
  · exact read_writeBytes_bcdDigits_of_outside s.mem (s.readV x) hi ha

/-- Settles O28: the block of registers is stored and no byte beside it. -/
theorem storeRegistersWritesTheBlock : Obligations.StoreRegistersWritesTheBlock := fun x s =>
  ⟨encodedAs_stRegs x, fun hi => ⟨_, exec_stRegs_of_lt hi, fun _ hr => read_writeBytes_registersTo s.mem s hi hr,
    fun _ ha => read_writeBytes_registersTo_of_outside s.mem s hi ha, advance_setMem_frame s _⟩⟩

/-- Settles O29: the block load sets V[0] to V[x] and nothing else but PC. -/
theorem loadRegistersReadsTheBlock : Obligations.LoadRegistersReadsTheBlock := fun x s =>
  ⟨encodedAs_ldRegs x, fun hi => ⟨_, exec_ldRegs_of_lt hi, fun r => getElem_loadRegisters s.mem s.i.toNat x r s.v, rfl,
    (sameExcept_advance s).trans (sameExcept_setV _ _)⟩⟩

/-- Settles O30: the load reads the bytes the store wrote, I being kept by both. -/
theorem loadAfterStoreRestoresRegisters : Obligations.LoadAfterStoreRestoresRegisters :=
  fun x s t u hi hstore hmem hiu => by
  obtain ⟨t', ht', hblock, -, -, hframe⟩ := (storeRegistersWritesTheBlock x s).2 hi
  obtain rfl : t' = t := Host.Outcome.next.inj (ht'.symm.trans hstore)
  have hieq : u.i = s.i := hiu.trans (hframe .index (by decide))
  obtain ⟨w, hw, hregs, -⟩ := (loadRegistersReadsTheBlock x u).2 (by rwa [hieq])
  refine ⟨w, hw, fun r => (hregs r).trans ?_⟩
  by_cases hr : r ≤ x
  · rw [if_pos hr, if_pos hr, hieq, hmem, hblock r hr]
  · rw [if_neg hr, if_neg hr]

/-- A range fault is taken exactly under its condition, where the instruction advances PC under every other one. -/
theorem condition_iff_faultTaken {P : Prop} {o : Host.Outcome State Fault Refusal} {kind : ErrorKind}
    {op : Option Word} {addr : Option Nat} {s : State} (hfault : P → o = .next (s.raiseFault kind op addr))
    (helse : ¬ P → ∃ t, o = .next t ∧ t.pc = s.pc + 2) : P ↔ ∃ t, o = .next t ∧ FaultTaken kind op addr s t := by
  refine ⟨fun h => ⟨_, hfault h, faultTaken_raiseFault s kind op addr⟩, fun ⟨t, ht, htaken⟩ => ?_⟩
  by_contra h
  obtain ⟨u, hu, hpc⟩ := helse h
  obtain rfl : u = t := Host.Outcome.next.inj (hu.symm.trans ht)
  exact not_faultTaken_of_advanced hpc htaken

/-- Settles O31: out of its range each of the four raises the fault, and within it each keeps the PC advance. -/
theorem rangeFaultsStoreNothing : Obligations.RangeFaultsStoreNothing := fun x y n s =>
  ⟨condition_iff_faultTaken exec_drw_of_bad fun h => ⟨_, exec_drw_of_fits (by omega), rfl⟩,
    condition_iff_faultTaken exec_ldB_of_ge fun h => ⟨_, exec_ldB_of_lt (by omega), rfl⟩,
    condition_iff_faultTaken exec_stRegs_of_ge fun h => ⟨_, exec_stRegs_of_lt (by omega), rfl⟩,
    condition_iff_faultTaken exec_ldRegs_of_ge fun h => ⟨_, exec_ldRegs_of_lt (by omega), rfl⟩⟩

/-- The fetch after a PC advance gives the bytes at pc0 + 2 and pc0 + 3 as the halves of its word. -/
theorem fetch_of_advanced {s t : State} (hpc : t.pc = s.pc + 2) (hlt : s.pc.toNat + 3 < 4096) :
    ∃ op, t.fetch = .ok op ∧ op.toNat / 256 = (t.mem.read (s.pc.toNat + 2)).toNat ∧
      op.toNat % 256 = (t.mem.read (s.pc.toNat + 3)).toNat := by
  have htpc : t.pc.toNat = s.pc.toNat + 2 := by rw [hpc, toNat_pc_add_two (by omega)]
  have hnext : t.pc.toNat + 1 = s.pc.toNat + 3 := congrArg (· + 1) htpc
  have hlow := (t.mem.read (s.pc.toNat + 3)).isLt
  refine ⟨_, State.fetch_of_lt (by omega), ?_⟩
  rw [opcodeOf_toNat, hnext, htpc]
  omega

/-- Settles O32: the next fetch reads memory after the store, whose bytes are known inside and outside the block. -/
theorem storedBytesAreFetchedNext : Obligations.StoredBytesAreFetchedNext := fun x s hpc => by
  refine ⟨fun hi => ?_, fun hi => ?_⟩
  · have hblock : ∀ r : RegIdx, r ≤ x → _ = s.readV r := fun r hr => read_writeBytes_registersTo s.mem s hi hr
    have hrest : ∀ c, _ → _ = s.mem.read c := fun c hc => read_writeBytes_registersTo_of_outside s.mem s hi (c := c) hc
    have hexec := exec_stRegs_of_lt hi
    obtain ⟨op, hop, hhigh, hlow⟩ := fetch_of_advanced (advance_setMem_frame s _).1 hpc
    refine ⟨_, op, hexec, hop, fun r hr ha => ?_, fun r hr ha => ?_, fun hc => ?_, fun hc => ?_⟩
    · rw [hhigh, ← ha, State.setMem_mem, hblock r hr]
    · rw [hlow, ← ha, State.setMem_mem, hblock r hr]
    · rw [hhigh, State.setMem_mem, hrest _ hc]
    · rw [hlow, State.setMem_mem, hrest _ hc]
  · have hdigit : ∀ k < 3, _ = (s.readV x).toNat / 10 ^ (2 - k) % 10 := fun k hk =>
      read_writeBytes_bcdDigits s.mem (s.readV x) hi hk
    have hrest : ∀ c, _ → _ = s.mem.read c := fun c hc =>
      read_writeBytes_bcdDigits_of_outside s.mem (s.readV x) hi (c := c) hc
    have hexec := exec_ldB_of_lt (x := x) hi
    obtain ⟨op, hop, hhigh, hlow⟩ := fetch_of_advanced (advance_setMem_frame s _).1 hpc
    refine ⟨_, op, hexec, hop, fun k hk ha => ?_, fun k hk ha => ?_, fun hc => ?_, fun hc => ?_⟩
    · rw [hhigh, ← ha, State.setMem_mem, hdigit k hk]
    · rw [hlow, ← ha, State.setMem_mem, hdigit k hk]
    · rw [hhigh, State.setMem_mem, hrest _ hc]
    · rw [hlow, State.setMem_mem, hrest _ hc]

end Sys2Proof.Machine
end

section
/-! The obligations of the sprite (44_family_D_sprite.md). -/

namespace Sys2Proof.Machine

theorem mem_spriteTargets_iff (s : State) (vx vy : Byte) (n : Nat) (row : Fin 32) (col : Fin 64) :
    (row, col) ∈ spriteTargets s.mem s.i.toNat vx vy n ↔ spriteCovers s vx vy n row col := by
  rw [mem_spriteTargets, spriteCovers]
  simp only [spriteBit, bne_iff_ne, targetRow, targetCol, Fin.ext_iff]

/-- The canvas of a sprite drawn over the framebuffer of `s` at the latched coordinates (44_family_D_sprite.md R105). -/
def drawnCanvas (s : State) (vx vy : Byte) (n : Nat) : Canvas :=
  Canvas.draw s.mem s.i.toNat vx vy n { fb := s.fb, hit := false }

theorem pixel_drawnCanvas (s : State) (vx vy : Byte) {n : Nat} (hn : n < 16) (r : Fin 32) (c : Fin 64) :
    (drawnCanvas s vx vy n).fb.pixel r c = (s.pixel r c ^^ decide ((r, c) ∈ spriteTargets s.mem s.i.toNat vx vy n)) := by
  rw [drawnCanvas, Canvas.draw_eq_targets]
  exact (Canvas.toggleAll_spec _ (nodup_spriteTargets _ _ _ _ n (by omega)) _).1 r c

theorem pixel_drawnCanvas_of_covers {s : State} {vx vy : Byte} {n : Nat} (hn : n < 16) {r : Fin 32} {c : Fin 64}
    (h : spriteCovers s vx vy n r c) : (drawnCanvas s vx vy n).fb.pixel r c = !(s.pixel r c) := by
  rw [pixel_drawnCanvas s vx vy hn, decide_eq_true ((mem_spriteTargets_iff s vx vy n r c).mpr h), Bool.xor_true]

theorem pixel_drawnCanvas_of_not_covers {s : State} {vx vy : Byte} {n : Nat} (hn : n < 16) {r : Fin 32} {c : Fin 64}
    (h : ¬ spriteCovers s vx vy n r c) : (drawnCanvas s vx vy n).fb.pixel r c = s.pixel r c := by
  rw [pixel_drawnCanvas s vx vy hn, decide_eq_false (fun hmem => h ((mem_spriteTargets_iff s vx vy n r c).mp hmem)),
    Bool.xor_false]

/-- A collision is met exactly where a target was on before (44_family_D_sprite.md R108). -/
theorem hit_drawnCanvas_iff (s : State) (vx vy : Byte) {n : Nat} (hn : n < 16) :
    (drawnCanvas s vx vy n).hit = true ↔ ∃ r c, spriteCovers s vx vy n r c ∧ s.pixel r c = true := by
  rw [drawnCanvas, Canvas.draw_eq_targets,
    (Canvas.toggleAll_spec _ (nodup_spriteTargets _ _ _ _ n (by omega)) _).2, Prod.exists]
  simp only [mem_spriteTargets_iff, Bool.false_eq_true, false_or]
  rfl

/-- Settles O35: the canvas toggles the targets, which are distinct, and VF is written with its collision. -/
theorem drawTogglesExactlyTheSprite : Obligations.DrawTogglesExactlyTheSprite := fun x y n s hn => by
  refine ⟨encodedAs_drw x y n hn, fun hr => ⟨_, exec_drw_of_fits hr, fun r c h => pixel_drawnCanvas_of_covers hn h,
    fun r c h => pixel_drawnCanvas_of_not_covers hn h, fun hon => ?_, fun hoff => ?_,
    fun r h => State.readV_writeV_of_ne _ _ h, rfl, ?_⟩⟩
  · have hhit := (hit_drawnCanvas_iff s (s.readV x) (s.readV y) hn).mpr hon
    exact (State.readV_writeV_same _ _ _).trans (congrArg flagByte hhit)
  · have hmiss : (drawnCanvas s (s.readV x) (s.readV y) n).hit = false := by
      by_contra hne
      obtain ⟨r, c, hcovers, hpixel⟩ := (hit_drawnCanvas_iff s _ _ hn).mp (Bool.of_not_eq_false hne)
      exact Bool.false_ne_true ((hoff r c hcovers).symm.trans hpixel)
    exact (State.readV_writeV_same _ _ _).trans (congrArg flagByte hmiss)
  · exact (((sameExcept_advance s).trans (sameExcept_setFb _ _)).trans (sameExcept_writeV _ _ _)).mono (by simp)

/-- The targets are a matter of memory, I and the coordinates. -/
theorem spriteCovers_congr {s t : State} (hmem : Same .memory s t) (hi : t.i = s.i) {vx vy : Byte} {n : Nat} {r : Fin 32}
    {c : Fin 64} : spriteCovers t vx vy n r c ↔ spriteCovers s vx vy n r c := by
  have hread : ∀ a, t.mem.read a = s.mem.read a := hmem
  simp only [spriteCovers, hread, hi]

/-- Settles O36: the second drawing has the targets of the first, and toggles them back. -/
theorem drawingTwiceRestoresTheScreen : Obligations.DrawingTwiceRestoresTheScreen :=
  fun x y n s t hn hr hexec hx hy => by
  obtain ⟨t', ht', hon, hoff, -, hclear, -, -, hframe⟩ := (drawTogglesExactlyTheSprite x y n s hn).2 hr
  obtain rfl : t' = t := Host.Outcome.next.inj (ht'.symm.trans hexec)
  have hi : t'.i = s.i := hframe .index (by decide)
  have hcovers : ∀ r c, spriteCovers t' (t'.readV x) (t'.readV y) n r c ↔ spriteCovers s (s.readV x) (s.readV y) n r c := by
    intro r c
    rw [hx, hy]
    exact spriteCovers_congr (hframe .memory (by decide)) hi
  obtain ⟨u, hu, hon', hoff', hhit, -⟩ := (drawTogglesExactlyTheSprite x y n t' hn).2 (by rwa [hi])
  refine ⟨u, hu, fun r c => ?_, fun hblank ⟨r, c, hrc⟩ => ⟨hclear fun r c _ => hblank r c, hhit ⟨r, c, ?_, ?_⟩⟩⟩
  · by_cases h : spriteCovers s (s.readV x) (s.readV y) n r c
    · rw [hon' r c ((hcovers r c).mpr h), hon r c h, Bool.not_not]
    · rw [hoff' r c fun h' => h ((hcovers r c).mp h'), hoff r c h]
  · exact (hcovers r c).mpr hrc
  · rw [hon r c hrc, hblank r c, Bool.not_false]

end Sys2Proof.Machine
end

section
/-! The obligations of the key wait, the keys and the timers (46_family_F_timer_index_memory.md Fx0A, 60_exceptions.md sections 8
to 10). -/

namespace Sys2Proof.Machine

/-! ## Keys -/

theorem exec_ldVxK (x : RegIdx) (s : State) : exec (.ldVxK x) s = .next (s.advance.setMode (.awaitingKey x)) := rfl

theorem keyUp_of_not_faulted {s : State} (k : KeyIdx) (hm : s.mode ≠ .faulted) : keyUp k s = s.setKey k false := by
  rcases keyUp_cases k s with ⟨hf, -⟩ | ⟨-, h⟩
  · exact absurd hf hm
  · exact h

/-- A key press that is no press edge of a key wait only sets its key. -/
theorem keyDown_of_no_edge {s : State} {k : KeyIdx} (hm : s.mode ≠ .faulted) (h : s.mode = .running ∨ s.key k = true) :
    keyDown k s = s.setKey k true := by
  rcases keyDown_cases k s with ⟨hf, -⟩ | ⟨-, -, heq⟩ | ⟨x, hwait, hkey, -⟩
  · exact absurd hf hm
  · exact heq
  · rcases h with hrun | hpressed
    · exact absurd (hrun.symm.trans hwait) nofun
    · exact absurd (hpressed.symm.trans hkey) nofun

/-- The press edge of a key wait (60_exceptions.md R144, decision D15). -/
theorem keyDown_of_edge {s : State} {k : KeyIdx} {x : RegIdx} (hm : s.mode = .awaitingKey x) (hk : s.key k = false) :
    keyDown k s = ((s.setKey k true).writeV x (BitVec.ofNat 8 k.val)).setMode .running := by
  simp only [keyDown, hm, hk, Bool.false_eq_true, if_false]

theorem State.key_setKey_same (s : State) (k : KeyIdx) (on : Bool) : (s.setKey k on).key k = on := by
  rw [State.key_setKey, if_pos rfl]

/-- Settles O37: the wait state is left by the press edge alone, which writes the key's index. -/
theorem keyWaitEndsOnAPressEdge : Obligations.KeyWaitEndsOnAPressEdge := fun x s => by
  have hm : (s.advance.setMode (.awaitingKey x)).mode = .awaitingKey x := rfl
  have hnf : (s.advance.setMode (.awaitingKey x)).mode ≠ .faulted := nofun
  refine ⟨encodedAs_ldVxK x, _, exec_ldVxK x s, rfl, rfl, (sameExcept_advance s).trans (sameExcept_setMode _ _),
    cycle_of_not_running nofun, rfl, rfl, fun k => ?_, fun k hk => ?_, fun k hk => ?_⟩
  · rw [keyUp_of_not_faulted k hnf]
    rfl
  · rw [keyDown_of_no_edge hnf (.inr hk)]
    exact ⟨fun _ => rfl, rfl⟩
  · rw [keyDown_of_edge hm hk]
    exact ⟨rfl, State.readV_writeV_same _ x _, State.key_setKey_same _ k true, rfl, fun r hr =>
      State.readV_writeV_of_ne ((s.advance.setMode _).setKey k true) _ hr⟩

/-- A key press sets its key and no other, press edge or not. -/
theorem key_keyDown {s : State} (k j : KeyIdx) (hm : s.mode ≠ .faulted) :
    (keyDown k s).key j = if j = k then true else s.key j := by
  rcases keyDown_cases k s with ⟨hf, -⟩ | ⟨-, -, h⟩ | ⟨x, -, -, h⟩
  · exact absurd hf hm
  · rw [h, State.key_setKey]
  · rw [h]
    exact State.key_setKey s k j true

theorem key_keyUp {s : State} (k j : KeyIdx) (hm : s.mode ≠ .faulted) :
    (keyUp k s).key j = if j = k then false else s.key j := by
  rw [keyUp_of_not_faulted k hm, State.key_setKey]

theorem keyDown_frame {s : State} (k : KeyIdx) (hm : s.mode ≠ .faulted) :
    SameExcept [.keys, .registers, .mode] s (keyDown k s) := by
  rcases keyDown_cases k s with ⟨hf, -⟩ | ⟨-, -, h⟩ | ⟨x, -, -, h⟩
  · exact absurd hf hm
  · rw [h]
    exact (sameExcept_setKey s k true).mono (by simp)
  · rw [h]
    exact (((sameExcept_setKey s k true).trans (sameExcept_writeV _ x _)).trans (sameExcept_setMode _ _)).mono (by simp)

/-- Settles O38: both events write one key, and the press edge of a key wait writes a register and MODE besides. -/
theorem keyEventsSetAndClearOneKey : Obligations.KeyEventsSetAndClearOneKey := fun k s hm => by
  refine ⟨?_, ?_, fun j hj => ⟨?_, ?_⟩, ?_, keyDown_frame k hm, fun hedge => ?_⟩
  · rw [key_keyDown k k hm, if_pos rfl]
  · rw [key_keyUp k k hm, if_pos rfl]
  · rw [key_keyDown k j hm, if_neg hj]
  · rw [key_keyUp k j hm, if_neg hj]
  · rw [keyUp_of_not_faulted k hm]
    exact sameExcept_setKey s k false
  · rw [keyDown_of_no_edge hm hedge]
    exact sameExcept_setKey s k true

/-! ## Timers -/

theorem tick_of_not_faulted {s : State} (hm : s.mode ≠ .faulted) :
    tick s = ((s.emit (.soundPulse (decide (s.st.toNat > 0)))).setDt (countDown s.dt)).setSt (countDown s.st) := by
  rcases tick_cases s with ⟨hf, -⟩ | ⟨-, h⟩
  · exact absurd hf hm
  · exact h

/-- A timer counts down by one and stops at 0 (10_state.md R27). -/
theorem countDown_toNat (b : Byte) : (countDown b).toNat = b.toNat - 1 := by
  unfold countDown
  split
  next h =>
    have hone : (1 : Byte) ≤ b := BitVec.le_def.mpr (show (1 : Byte).toNat ≤ b.toNat from h)
    rw [BitVec.toNat_sub_of_le hone]
    rfl
  next h => omega

/-- Settles O39: a Tick is one record received and the two timers written. -/
theorem tickCountsBothTimersDown : Obligations.TickCountsBothTimersDown := fun s hm => by
  have hst : (tick s).st.toNat = s.st.toNat - 1 := by rw [tick_of_not_faulted hm, State.setSt_st, countDown_toNat]
  refine ⟨?_, hst, ?_, ?_, ?_⟩
  · rw [tick_of_not_faulted hm, State.setSt_dt, State.setDt_dt, countDown_toNat]
  · have hpulse : decide (s.st.toNat > 0) = decide (s.st ≠ 0) :=
      decide_eq_decide.mpr (decide_eq_true_iff.symm.trans (soundActive_iff_st_ne_zero s))
    rw [tick_of_not_faulted hm, hpulse]
    rfl
  · rw [soundActive, decide_eq_true_iff, hst]
    omega
  · rw [tick_of_not_faulted hm]
    exact (((sameExcept_setEnv s _).trans (sameExcept_setDt _ _)).trans (sameExcept_setSt _ _)).mono (by simp)

/-- Settles O40: one Tick after the other, MODE being kept by each. -/
theorem ticksReachZeroAndStay : Obligations.TicksReachZeroAndStay := fun n s hm => by
  induction n with
  | zero => exact ⟨rfl, rfl, SameExcept.refl _ s⟩
  | succ n ih =>
    obtain ⟨hdt, hst, hframe⟩ := ih
    have hmn : (tick^[n] s).mode ≠ .faulted := by
      rw [show (tick^[n] s).mode = s.mode from hframe .mode (by decide)]
      exact hm
    obtain ⟨hdt1, hst1, -, -, hframe1⟩ := tickCountsBothTimersDown (tick^[n] s) hmn
    rw [Function.iterate_succ_apply']
    exact ⟨by omega, by omega, (hframe.trans hframe1).mono (by simp)⟩

end Sys2Proof.Machine
end
